-- ==== Sys2Proof/Word.lean ====
section
/-! DEFINITION. The word types of the QHV block: the octet (R10), the 62-bit value (R29, R70) and the
80-bit command word (R70). -/
namespace Sys2Proof

/-- An octet: an unsigned value 0..255, bit 7 the most significant (R10). -/
abbrev Octet := BitVec 8

/-- A varint value, a `len` operand or the `RESULT` register: 62 bits (R6 `VI_BITS`, R29). -/
abbrev Value := BitVec 62

/-- A command word `cmd[79:0]` (R70). -/
abbrev CmdWord := BitVec 80

end Sys2Proof
end

