-- ==== Sys2Proof/Config.lean ====
section
/-! DEFINITION. The parameters of the block: those the source document fixes (R6), those the spec decides or
leaves open (R7), and the type of the code table `HUFF_CODES` (R9, R78, R170). The 257 rows themselves stand in
Sys2Proof/Machine/HuffCodes.lean. -/
namespace Sys2Proof

/-! ### Parameters fixed by the document (R6) -/

/-- `WIN_BITS`: width of the cursor's head window (R6). -/
abbrev Config.winBits : Nat := 32
/-- `PEEK_BITS`: width of one peek and of one lookup index (R6). -/
abbrev Config.peekBits : Nat := 8
/-- `LAYER_SIZE`: entries per lookup layer (R6). -/
abbrev Config.layerSize : Nat := 256
/-- `MAX_DEPTH`: greatest number of layers on a root-to-leaf path (R6). -/
abbrev Config.maxDepth : Nat := 4
/-- `NSYM`: number of Huffman symbols (R6). -/
abbrev Config.nSym : Nat := 257
/-- `EOS`: the end-of-string symbol (R6). -/
abbrev Config.eos : Fin 257 := 256
/-- `LEN_MIN`: least code length in bits (R6). -/
abbrev Config.lenMin : Nat := 5
/-- `LEN_MAX`: greatest code length in bits (R6). -/
abbrev Config.lenMax : Nat := 30
/-- `SHIFT_MIN`: least operand of a cursor shift (R6). -/
abbrev Config.shiftMin : Nat := 1
/-- `SHIFT_MAX`: greatest operand of a cursor shift (R6). -/
abbrev Config.shiftMax : Nat := 32
/-- `PFX_MIN`: least prefix width of the varint unit (R6). -/
abbrev Config.pfxMin : Nat := 3
/-- `PFX_MAX`: greatest prefix width of the varint unit (R6). -/
abbrev Config.pfxMax : Nat := 8
/-- `VI_BITS`: width of a varint value (R6). -/
abbrev Config.viBits : Nat := 62

/-! ### Parameters the document does not fix (R7) -/

/-- `IN_MAX`, the greatest length in octets of the input buffer: OPEN (R7, D3), any natural with
`8 * IN_MAX < 2^62` (R29). No value of it can be used: it has no body. No step reads it; it bounds only what a
conforming host offers (`HostMove.Allowed`). DESIGN CHOICE, safe (log 5). -/
opaque Config.inMax : Fin (2 ^ 59)

/-- One entry of `HUFF_CODES`: the symbol, and its `(pattern, len)` with the pattern as the `hex` column gives it,
the `len` bits read as a number, first bit most significant (R78, R170, R172). -/
structure HuffCode where
  sym : Fin 257
  bits : Nat
  len : Nat
  deriving DecidableEq, Repr

/-- A value of the configuration parameter `HUFF_CODES`, rows in symbol order (R9, R31, R170). It is a plain list so
that the build is defined for broken tables too (R121, R123: a build validates nothing). -/
abbrev CodeTable := List HuffCode

end Sys2Proof
end

