-- ==== Sys2Proof/Machine/Operands.lean ====
section
/-! DEFINITION. Operand assembly (R71): the ranges of the count field (R73), the all-ones prefix of a varint, and
the bit strings the other files read and write, most significant bit first (R10, R52). -/
namespace Sys2Proof

/-- `1 <= n <= 32`, the range of `BC_SHIFT` (R72, R73). -/
def legalShift (n : BitVec 6) : Bool :=
  decide (Config.shiftMin ≤ n.toNat ∧ n.toNat ≤ Config.shiftMax)

/-- `3 <= N <= 8`, the range of `VI_DEC` and `VI_ENC` (R72, R73). -/
def legalPrefix (n : BitVec 6) : Bool :=
  decide (Config.pfxMin ≤ n.toNat ∧ n.toNat ≤ Config.pfxMax)

/-- `M = 2^N - 1`, the all-ones prefix (R151, R152). -/
def prefixMask (n : BitVec 6) : Nat := 2 ^ n.toNat - 1

/-- The `len` bits of `v`, first bit most significant (R10). -/
def bitsOfNat : (len : Nat) → (v : Nat) → List Bool
  | 0, _ => []
  | len + 1, v => v.testBit len :: bitsOfNat len v

/-- A bit string read as a number, its first bit most significant (R10). -/
def natOfBits (b : List Bool) : Nat := b.foldl (fun a x => 2 * a + x.toNat) 0

/-- The `n` bits of an infinite bit string that start at index `k` (R10). -/
def bitsFrom (f : Nat → Bool) : (k n : Nat) → List Bool
  | _, 0 => []
  | k, n + 1 => f k :: bitsFrom f (k + 1) n

/-- The pattern of a code, first bit first (R78, R172). -/
def HuffCode.pattern (c : HuffCode) : List Bool := bitsOfNat c.len c.bits

end Sys2Proof
end

