-- ==== Sys2Proof/Syntax.lean ====
section
/-! DEFINITION. The nine commands (R72), with the operands their words carry (R70, R71), and the names of the
reasons a word is no command (R73). -/
namespace Sys2Proof

/-- The nine commands, one constructor per row of the opcode map (R72). Operands are the fields of the command word
as they stand, unsigned (R71). -/
inductive Instr where
  /-- `BC_LOAD len` (R102) -/
  | bcLoad (len : Value)
  /-- `BC_PEEK` (R103) -/
  | bcPeek
  /-- `BC_SHIFT n` (R104) -/
  | bcShift (n : BitVec 6)
  /-- `BC_REMAIN` (R105) -/
  | bcRemain
  /-- `HUF_BUILD` (R123) -/
  | hufBuild
  /-- `HUF_STEP` (R124) -/
  | hufStep
  /-- `HUF_DECODE len` (R125) -/
  | hufDecode (len : Value)
  /-- `VI_DEC N` (R151) -/
  | viDec (n : BitVec 6)
  /-- `VI_ENC N, flags, value` (R152) -/
  | viEnc (n : BitVec 6) (flags : Octet) (value : Value)
  deriving DecidableEq, Repr

/-- Why a word is no command (R73). All three raise the one fault `IllegalCommand`. -/
inductive IllegalWord where
  /-- (a) `op` is 0 or 10..15 -/
  | unknownOp
  /-- (b) a field the command does not use is non-zero -/
  | unusedField
  /-- (c) `n` is outside the row's range -/
  | countRange
  deriving DecidableEq, Repr

/-- The range condition of a row of the opcode map on the count field (R72). -/
inductive CountRange where
  /-- no condition -/
  | any
  /-- `1 <= n <= 32` -/
  | shift
  /-- `3 <= N <= 8` -/
  | prefixWidth
  deriving DecidableEq, Repr

/-- A row of the opcode map: a word is the command of the row iff `(w & mask) = pattern` and its count field is in
the range (R72; `pattern` is the table's `match` column). -/
structure OpRow where
  mnemonic : String
  mask : CmdWord
  pattern : CmdWord
  range : CountRange
  deriving DecidableEq, Repr

end Sys2Proof
end

