-- ==== Sys2Proof/WellFormed.lean ====
section
/-! DEFINITION. Which instructions are commands with operands in range (R72, range conditions; R73 (c)). -/
namespace Sys2Proof

/-- The operands are in the row's range (R72). The other fields admit every value of their width. -/
def Instr.wf : Instr → Bool
  | .bcLoad _ => true
  | .bcPeek => true
  | .bcShift n => legalShift n
  | .bcRemain => true
  | .hufBuild => true
  | .hufStep => true
  | .hufDecode _ => true
  | .viDec n => legalPrefix n
  | .viEnc n _ _ => legalPrefix n

end Sys2Proof
end

