-- ==== Sys2Proof/Decode.lean ====
section
/-! DEFINITION. The command word's fields (R70, R71), the decoder (R72, R73), total on every word and rejecting by
name, and the encoder written from the same table. -/
namespace Sys2Proof

/-- `op`, bits 79:76 (R70). -/
def opOf (w : CmdWord) : BitVec 4 := w.extractLsb' 76 4

/-- `n`, bits 75:70 (R70). -/
def countOf (w : CmdWord) : BitVec 6 := w.extractLsb' 70 6

/-- `flags`, bits 69:62 (R70). -/
def flagsOf (w : CmdWord) : Octet := w.extractLsb' 62 8

/-- `value`, bits 61:0 (R70). -/
def valueOf (w : CmdWord) : Value := w.extractLsb' 0 62

/-- Answer `i` unless a check fails; the unused fields are checked first (R73: every failure is the same fault).
DESIGN CHOICE, safe (log 16). -/
def acceptIf (unusedZero inRange : Bool) (i : Instr) : Except IllegalWord Instr :=
  if unusedZero then (if inRange then .ok i else .error .countRange) else .error .unusedField

/-- The command a word is, or why it is none (R72, R73). -/
def decode (w : CmdWord) : Except IllegalWord Instr :=
  let n := countOf w
  let f := flagsOf w
  let v := valueOf w
  match (opOf w).toNat with
  | 1 => acceptIf (n == 0 && f == 0) true (.bcLoad v)
  | 2 => acceptIf (n == 0 && f == 0 && v == 0) true .bcPeek
  | 3 => acceptIf (f == 0 && v == 0) (legalShift n) (.bcShift n)
  | 4 => acceptIf (n == 0 && f == 0 && v == 0) true .bcRemain
  | 5 => acceptIf (n == 0 && f == 0 && v == 0) true .hufBuild
  | 6 => acceptIf (n == 0 && f == 0 && v == 0) true .hufStep
  | 7 => acceptIf (n == 0 && f == 0) true (.hufDecode v)
  | 8 => acceptIf (f == 0 && v == 0) (legalPrefix n) (.viDec n)
  | 9 => acceptIf true (legalPrefix n) (.viEnc n f v)
  | _ => .error .unknownOp

/-- The range condition of a row, on the count field (R72). -/
def CountRange.admits : CountRange → BitVec 6 → Bool
  | .any, _ => true
  | .shift, n => legalShift n
  | .prefixWidth, n => legalPrefix n

/-- The opcode map as the spec prints it (R72). The decoder does not read it: that the two agree is a claim. -/
def opcodeMap : List OpRow :=
  [⟨"BC_LOAD", 0xffffc000000000000000, 0x10000000000000000000, .any⟩,
   ⟨"BC_PEEK", 0xffffffffffffffffffff, 0x20000000000000000000, .any⟩,
   ⟨"BC_SHIFT", 0xf03fffffffffffffffff, 0x30000000000000000000, .shift⟩,
   ⟨"BC_REMAIN", 0xffffffffffffffffffff, 0x40000000000000000000, .any⟩,
   ⟨"HUF_BUILD", 0xffffffffffffffffffff, 0x50000000000000000000, .any⟩,
   ⟨"HUF_STEP", 0xffffffffffffffffffff, 0x60000000000000000000, .any⟩,
   ⟨"HUF_DECODE", 0xffffc000000000000000, 0x70000000000000000000, .any⟩,
   ⟨"VI_DEC", 0xf03fffffffffffffffff, 0x80000000000000000000, .prefixWidth⟩,
   ⟨"VI_ENC", 0xf0000000000000000000, 0x90000000000000000000, .prefixWidth⟩]

/-- A word is the command of a row (R72). -/
def OpRow.accepts (r : OpRow) (w : CmdWord) : Bool :=
  (w &&& r.mask) == r.pattern && r.range.admits (countOf w)

/-- The table's name of an instruction (R72, R74). -/
def Instr.mnemonic : Instr → String
  | .bcLoad _ => "BC_LOAD"
  | .bcPeek => "BC_PEEK"
  | .bcShift _ => "BC_SHIFT"
  | .bcRemain => "BC_REMAIN"
  | .hufBuild => "HUF_BUILD"
  | .hufStep => "HUF_STEP"
  | .hufDecode _ => "HUF_DECODE"
  | .viDec _ => "VI_DEC"
  | .viEnc _ _ _ => "VI_ENC"

/-- The command word of the four fields, `op` uppermost (R70). -/
def wordOf (op : BitVec 4) (n : BitVec 6) (flags : Octet) (value : Value) : CmdWord :=
  op ++ n ++ flags ++ value

/-- The word of an instruction: its row's `op`, its operands, and zero in every unused field (R71, R72). -/
def encode : Instr → CmdWord
  | .bcLoad len => wordOf 1 0 0 len
  | .bcPeek => wordOf 2 0 0 0
  | .bcShift n => wordOf 3 n 0 0
  | .bcRemain => wordOf 4 0 0 0
  | .hufBuild => wordOf 5 0 0 0
  | .hufStep => wordOf 6 0 0 0
  | .hufDecode len => wordOf 7 0 0 len
  | .viDec n => wordOf 8 n 0 0
  | .viEnc n flags value => wordOf 9 n flags value

/-- The instruction the decoder reads from the word whose bits are `w`, numbered as spec/opcode_table.json numbers
them, of which `nbits` are given and every bit above is 0. The block is handed a whole 80-bit word at once (R70), so
bit 0 of the table is bit 0 of the word; a number that needs more than 80 bits is no command word. DEDUCED, safe
(log 15). -/
def decodeTableWord (nbits w : Nat) : Option Instr :=
  if w % 2 ^ nbits < 2 ^ 80 then (decode (BitVec.ofNat 80 (w % 2 ^ nbits))).toOption else none

end Sys2Proof
end

