-- ==== Sys2Proof/Machine/State.lean ====
section
/-! DEFINITION. The state of the block (R20), every item with its value after a hard reset, as plain data; the names
of the fault causes (R181), the entries of the lookup table (R79), the host's moves (R215); and the reasons a step of
the MODEL can stop. -/
namespace Sys2Proof.Machine

/-- The causes a faulting command records in `FAULT` (R181). These are values of a register of the block: a command
that raises one goes on to a next state. -/
inductive FaultCause where
  /-- code 1: the word matches no row of the opcode map -/
  | illegalCommand
  /-- code 2: the source is exhausted -/
  | truncatedInput
  /-- code 3: the accumulated value exceeds `2^62 - 1` -/
  | varintOverflow
  /-- code 4: `LUT_VALID = 0` -/
  | lutNotBuilt
  /-- code 5: the looked-up entry is `Empty` -/
  | lutMiss
  /-- code 6: the looked-up entry is a leaf holding symbol 256 -/
  | huffEos
  /-- code 7: a code is placed over an entry already written -/
  | buildCollision
  deriving DecidableEq, Repr

/-- Why the model stops with a fault of its OWN. Neither belongs to the block: the spec names no such event, and no
state that satisfies the invariants of R26 raises one. -/
inductive Fault where
  /-- Raised by `BC_PEEK`, `HUF_STEP` and `HUF_DECODE` in a state that breaks I1 or I2 of R26, where the cursor names
  octets of `IN` that do not exist (R11, R51). DESIGN CHOICE, safe: the model stops where the spec gives no
  behaviour (log 6). -/
  | cursorOutOfBounds
  /-- Raised by `HUF_STEP` and `HUF_DECODE` in a state that breaks I5 of R26, where `LP` names no allocated layer of
  256 entries (R51, R120). DESIGN CHOICE, safe: the model stops where the spec gives no behaviour (log 6). -/
  | layerNotAllocated
  deriving DecidableEq, Repr

/-- Why the model gives no meaning. -/
inductive Refusal where
  /-- Raised by an arm of `exec` that has no meaning yet; no arm of this model does. Safe. -/
  | notModelled (mnemonic : String)
  deriving DecidableEq, Repr

/-- An entry of a lookup layer (R79, R120): `leaf sym extra` is the spec's `Leaf(sym, l)` with `l = extra + 1`, so
that `l` is in 1..8 by its type; `branch m` is `Branch(m)`. -/
inductive Entry where
  | empty
  | leaf (sym : Fin 257) (extra : Fin 8)
  | branch (m : Nat)
  deriving DecidableEq, Repr

/-- A layer: its entries 0..255 in order (R120). That there are 256 of them is `Lut.wf`. -/
abbrev Layer := List Entry

/-- The layered lookup table: layer 0 is the root (R120). -/
abbrev Lut := List Layer

/-- The moves of the host (R215). -/
inductive HostMove where
  /-- HardReset (R40) -/
  | hardReset
  /-- SoftReset (R40) -/
  | softReset
  /-- LoadInput of an octet sequence -/
  | loadInput (d : List Octet)
  /-- IssueCommand of an 80-bit word -/
  | issue (w : CmdWord)
  /-- ReadResult -/
  | readResult
  /-- ReadStatus -/
  | readStatus
  /-- ReadOut -/
  | readOut
  deriving DecidableEq, Repr

/-- What a read move returns to the host (R215). -/
inductive Reply where
  | result (v : Value)
  | status (v : BitVec 8)
  | out (v : List Octet)
  deriving DecidableEq, Repr

/-- The state. The items of R20 are fields, but for three that R20 or its rules define from others and that are
functions here: `IN_LEN` (`State.inLen`), `W` (`State.window`) and `VB` (`State.validBits`); `STATUS` has no storage
of its own (R33, `State.status`). The last two fields are the MODEL's own: the host's side of the interface. DEDUCED,
safe (log 10, 11). -/
structure State where
  /-- `IN`: the source octets, index 0 first; octets outside `0 .. IN_LEN-1` do not exist -/
  inBuf : List Octet
  /-- `IP`: index of the next source octet -/
  ip : Nat
  /-- `CB`: index in `IN` of the first octet of the cursor's sequence -/
  cb : Nat
  /-- `CL`: number of octets in the cursor's sequence -/
  cl : Nat
  /-- `RB`: remaining real bits of the cursor -/
  rb : Nat
  /-- `LP`: the layer the next Huffman lookup indexes -/
  lp : Nat
  /-- `HDONE`: the Huffman decode of the current cursor has stopped -/
  hdone : Bool
  /-- `LUT`: the layered lookup table -/
  lut : Lut
  /-- `LUT_VALID`: `LUT` has been built -/
  lutValid : Bool
  /-- `OUT`: every octet emitted since the last reset, in order -/
  out : List Octet
  /-- `RESULT` -/
  result : Value
  /-- `FAULT`: `none` is code 0; otherwise the cause of the first fault since reset.
  DEDUCED, safe (log 9) -/
  fault : Option FaultCause
  /-- MODEL'S OWN: the host's moves still to come, the next one first (R13, R215).
  DESIGN CHOICE, safe (log 1, 2, 4). -/
  pending : List HostMove
  /-- MODEL'S OWN: what the read moves have returned to the host, oldest first (R215).
  DESIGN CHOICE, safe (log 3, 4). -/
  replies : List Reply
  deriving DecidableEq, Repr

/-- A layer of 256 `Empty` entries (R121). -/
def Layer.fresh : Layer := List.replicate Config.layerSize .empty

/-- The state right after a hard reset; power-on is one (R20, R40). The host has announced no move. -/
def State.reset : State where
  inBuf := []
  ip := 0
  cb := 0
  cl := 0
  rb := 0
  lp := 0
  hdone := false
  lut := [Layer.fresh]
  lutValid := false
  out := []
  result := 0
  fault := none
  pending := []
  replies := []

end Sys2Proof.Machine
end

