-- ==== Sys2Proof/Machine/Flags.lean ====
section
/-! DEFINITION. The two flags and the `STATUS` view (R33, R34). -/
namespace Sys2Proof.Machine

/-- The code of a cause (R181). -/
def FaultCause.code : FaultCause → BitVec 4
  | .illegalCommand => 1
  | .truncatedInput => 2
  | .varintOverflow => 3
  | .lutNotBuilt => 4
  | .lutMiss => 5
  | .huffEos => 6
  | .buildCollision => 7

/-- What `FAULT` holds: 0 for no fault, otherwise the cause's code (R20, R181). -/
def State.faultCode (s : State) : BitVec 4 :=
  match s.fault with
  | none => 0
  | some c => c.code

/-- `STATUS`: bits 7:6 zero, 5 `HDONE`, 4 `LUT_VALID`, 3:0 `FAULT` (R33). -/
def State.status (s : State) : BitVec 8 :=
  (0 : BitVec 2) ++ BitVec.ofBool s.hdone ++ BitVec.ofBool s.lutValid ++ s.faultCode

/-- The decode stops: `HDONE <- 1; LP <- 0` (R34, R124). -/
def State.stopDecode (s : State) : State := { s with hdone := true, lp := 0 }

/-- A new traversal starts: `LP <- 0; HDONE <- 0` (R34, R102, R215). -/
def State.startDecode (s : State) : State := { s with lp := 0, hdone := false }

/-- The build has completed: `LUT_VALID <- 1` (R34, R123). -/
def State.markBuilt (s : State) : State := { s with lutValid := true }

end Sys2Proof.Machine
end

