-- ==== Sys2Proof/Machine/Ops.lean ====
section
/-! DEFINITION. The named operations every command is written with (R11, R101): reads of `IN`, the cursor's stream
and window, `peek`, `shift`, `Emit`, `RESULT <- v`, `raise` (taking a fault), the two resets (leaving a fault), and
the order of a command's checks. -/
namespace Sys2Proof.Machine

/-- What a command or a step answers. -/
abbrev Result := Host.Outcome State Fault Refusal

/-! ### The source (R27, R50, R51) -/

/-- `IN_LEN` (R20): the number of octets in `IN`. -/
def State.inLen (s : State) : Nat := s.inBuf.length

/-- `IN[a]`: the octet at index `a`, none where it does not exist (R11, R51). -/
def State.readIn (s : State) (a : Nat) : Option Octet := s.inBuf[a]?

/-- The octets of the source not yet taken, `IN[IP]` first; empty exactly when the source is exhausted (R27). -/
def State.source (s : State) : List Octet := s.inBuf.drop s.ip

/-- `IP + len <= IN_LEN`, on unbounded naturals (R102). -/
def State.sourceHas (s : State) (len : Nat) : Bool := decide (s.ip + len ≤ s.inLen)

/-- `IP <- IP + k` (R64 (a)). -/
def State.advance (k : Nat) (s : State) : State := { s with ip := s.ip + k }

/-! ### The sink and the result register (R28, R29) -/

/-- `OUT[a]`: the octet emitted as number `a` since the last reset. -/
def State.readOut (s : State) (a : Nat) : Option Octet := s.out[a]?

/-- `Emit(o)` for each octet of a list in order: `OUT <- OUT ++ [o]`, the only write to the stream (R11, R28). -/
def State.emit (os : List Octet) (s : State) : State := { s with out := s.out ++ os }

/-- `zext_62(v)` of a natural number that fits in 62 bits (R10, R29); of a larger one, which no conforming host can
bring about, the low 62 bits. DEDUCED, unsafe (log 17). -/
def zext62 (v : Nat) : Value := BitVec.ofNat Config.viBits v

/-- `RESULT <- zext_62(v)` (R29). -/
def State.setResult (v : Nat) (s : State) : State := { s with result := zext62 v }

/-! ### The bit cursor (R22 to R26, R101) -/

/-- `POS = 8*CL - RB`, the number of bits consumed (R23). -/
def State.pos (s : State) : Nat := 8 * s.cl - s.rb

/-- `VB = min(RB, 32)` (R25). -/
def State.validBits (s : State) : Nat := min s.rb Config.winBits

/-- I1 and I2 of R26: the cursor's sequence lies inside `IN` and its position inside the sequence. -/
def State.cursorLegal (s : State) : Bool := decide (s.cb + s.cl ≤ s.inLen ∧ s.rb ≤ 8 * s.cl)

/-- `S[k]`: the real bits, each octet's most significant first, and 1 after them (R23, R52). With `cursorLegal` every
octet it names exists; the inner `none` is not reached from a command. DESIGN CHOICE, safe (log 6). -/
def State.streamBit (s : State) (k : Nat) : Bool :=
  if k < 8 * s.cl then
    match s.readIn (s.cb + k / 8) with
    | some o => o.getLsbD (7 - k % 8)
    | none => true
  else true

/-- `W`: the next 32 bits of the stream, `W[31 - j] = S[POS + j]` (R24, the window law). -/
def State.window (s : State) : BitVec 32 :=
  BitVec.ofNat Config.winBits (natOfBits (bitsFrom s.streamBit s.pos Config.winBits))

/-- `peek() := W[31:24]` (R101). -/
def State.peek (s : State) : BitVec 8 := s.window.extractLsb' 24 8

/-- `shift(n) := RB <- max(RB - n, 0)`, subtraction of naturals; `W` follows by the window law (R101). -/
def State.shift (n : Nat) (s : State) : State := { s with rb := s.rb - n }

/-- `LP <- l` (R11). -/
def State.setLp (l : Nat) (s : State) : State := { s with lp := l }

/-- `LUT <- t`, written only by the build (R30). -/
def State.setLut (t : Lut) (s : State) : State := { s with lut := t }

/-- The cursor is constructed over the next `len` octets of the source, which move past (R102, R64 (a)). -/
def State.loadCursor (len : Nat) (s : State) : State :=
  ({ s with cb := s.ip, cl := len, rb := 8 * len } : State).advance len |>.startDecode

/-! ### Faults: entry and exit (R180, R183, R184, R186) -/

/-- `raise c`, the one way a fault is taken: `FAULT <- code(c)` and the command ends. Writes made before stay; nothing
else is saved, and no control is transferred (R183). The block goes on: the answer of the command is this next state.
DEDUCED, safe (log 7). -/
def State.raise (c : FaultCause) (s : State) : State := { s with fault := some c }

/-- Hard reset: every item of R20 to its value after hard reset (R40). The host's own side is not the block's.
DESIGN CHOICE, safe (log 4). -/
def State.hardReset (s : State) : State :=
  { State.reset with pending := s.pending, replies := s.replies }

/-- Soft reset: as a hard reset, but `LUT` and `LUT_VALID` are kept (R40). -/
def State.softReset (s : State) : State :=
  { s.hardReset with lut := s.lut, lutValid := s.lutValid }

/-- The checks every command word passes, in their order (R183): while `FAULT` is not 0 the word is refused and nothing
changes (R184); a word that is no command, or whose operands are out of range, raises `IllegalCommand` (R73); then the
command's own text. That an operand out of range does so in `exec` too is DEDUCED, safe (log 8). -/
def command (legal : Bool) (body : State → Result) (s : State) : Result :=
  if s.fault.isSome then .next s
  else if legal then body s
  else .next (s.raise .illegalCommand)

end Sys2Proof.Machine
end

