-- ==== Sys2Proof/Machine/Cursor.lean ====
section
/-! DEFINITION. The bit-cursor commands (R100 to R106). -/
namespace Sys2Proof.Machine

/-- `BC_LOAD len`: construct the cursor over the next `len` octets of the source (R102). -/
def execBcLoad (len : Value) (s : State) : Result :=
  command true (fun s =>
    if s.sourceHas len.toNat then .next (s.loadCursor len.toNat) else .next (s.raise .truncatedInput)) s

/-- `BC_PEEK`: `RESULT <- zext_62(peek())` (R103). -/
def execBcPeek (s : State) : Result :=
  command true (fun s =>
    if s.cursorLegal then .next (s.setResult s.peek.toNat) else .fault .cursorOutOfBounds) s

/-- `BC_SHIFT n`: `shift(n)`; `LP` and `HDONE` are not touched (R104, R224). -/
def execBcShift (n : BitVec 6) (s : State) : Result :=
  command (legalShift n) (fun s => .next (s.shift n.toNat)) s

/-- `BC_REMAIN`: `RESULT <- zext_62(RB)` (R105). -/
def execBcRemain (s : State) : Result :=
  command true (fun s => .next (s.setResult s.rb)) s

end Sys2Proof.Machine
end

