-- ==== Sys2Proof/Machine/Table.lean ====
section
/-! DEFINITION. The layered lookup table: reading an entry, and the construction algorithm (R120, R121). The build
takes the code table as an argument (R9, R35). -/
namespace Sys2Proof.Machine

/-- `LUT[l][i]`, none where the layer or the entry does not exist (R11, R120). -/
def Lut.entry? (t : Lut) (l i : Nat) : Option Entry := t[l]?.bind (·[i]?)

/-- Write `e` to `n` entries of a layer from index `skip` upward, in order, each of which must be `Empty`; answer the
layer and whether every write was made. A collision leaves the writes made before it. This is the `for k` loop of
`place` (R121) run along the layer once; `fillRun_eq_fillLoop` says that it is that loop. DESIGN CHOICE, safe (log 13). -/
def fillRun (e : Entry) : (skip n : Nat) → Layer → Layer × Bool
  | _, n, [] => ([], n == 0)
  | skip + 1, n, x :: l =>
    let r := fillRun e skip n l
    (x :: r.1, r.2)
  | 0, 0, x :: l => (x :: l, true)
  | 0, n + 1, x :: l =>
    match x with
    | .empty =>
      let r := fillRun e 0 n l
      (e :: r.1, r.2)
    | .leaf _ _ => (x :: l, false)
    | .branch _ => (x :: l, false)

/-- The last bits of a code, at most 8: every entry of layer `l` whose top bits are `b` becomes a leaf (R121). The
error is `BuildCollision`, with the table as it then stands. -/
def placeLeaf (t : Lut) (l : Nat) (sym : Fin 257) (b : List Bool) : Except Lut Lut :=
  let free := Config.peekBits - b.length
  let r := fillRun (.leaf sym (Fin.ofNat 8 (b.length - 1))) (natOfBits b <<< free) (2 ^ free) (t.getD l [])
  if r.2 then .ok (t.set l r.1) else .error (t.set l r.1)

/-- `place(L, sym, b)`: `b` the bits of the code not yet used (R121). The first argument is fuel, at least the length
of `b`, which every recursion shortens by 8. DESIGN CHOICE, safe (log 13, 14). -/
def place (sym : Fin 257) : (fuel l : Nat) → (b : List Bool) → Lut → Except Lut Lut
  | 0, _, _, t => .ok t
  | fuel + 1, l, b, t =>
    if b.length ≤ Config.peekBits then placeLeaf t l sym b
    else
      let i := natOfBits (b.take Config.peekBits)
      let rest := b.drop Config.peekBits
      match t.entry? l i with
      | some (.branch m) => place sym fuel m rest t
      | some .empty =>
        place sym fuel t.length rest (t.set l ((t.getD l []).set i (.branch t.length)) ++ [Layer.fresh])
      | some (.leaf _ _) => .error t
      | none => .error t

/-- Place the codes one after another, in the table's order (R121, D17). -/
def placeAll : CodeTable → Lut → Except Lut Lut
  | [], t => .ok t
  | c :: cs, t =>
    match place c.sym c.len 0 c.pattern t with
    | .ok t' => placeAll cs t'
    | .error t' => .error t'

/-- `build()`: from one layer with every entry `Empty` (R121). `ok` is the finished table, `error` the partly built
table a `BuildCollision` leaves. -/
def build (codes : CodeTable) : Except Lut Lut := placeAll codes [Layer.fresh]

end Sys2Proof.Machine
end

