-- ==== Sys2Proof/Machine/Huffman.lean ====
section
/-! DEFINITION. The Huffman commands (R120 to R129). -/
namespace Sys2Proof.Machine

/-- `HUF_BUILD` with the code table as an argument (R123, R35): idempotent; a collision leaves the partly built table
and `LUT_VALID = 0`. -/
def buildLut (codes : CodeTable) (s : State) : State :=
  if s.lutValid then s
  else
    match build codes with
    | .ok t => (s.setLut t).markBuilt
    | .error t => (s.setLut t).raise .buildCollision

/-- The leaf arm of a decode step: emit the symbol, shift by the bits of the code in this layer, back to the root. There
is no comparison with `RB` (R124 point (b), C3, C5). -/
def takeLeaf (sym : Fin 257) (l : Nat) (s : State) : Result :=
  if sym = Config.eos then .next (s.raise .huffEos)
  else .next ((s.emit [BitVec.ofNat 8 sym.val]).shift l |>.setLp 0)

/-- The branch arm of a decode step: with fewer than 8 real bits left the decode stops and drops them, unlooked at
(R124 point (c), C2); otherwise descend. -/
def takeBranch (m : Nat) (s : State) : Result :=
  if s.rb < Config.peekBits then .next (s.shift s.rb).stopDecode
  else .next ((s.shift Config.peekBits).setLp m)

/-- One iteration of the decode loop (R124). The test of `RB` is made at every layer (point (a), D9). -/
def decodeStep (s : State) : Result :=
  if s.lutValid then
    if s.hdone then .next s
    else if s.rb = 0 then .next s.stopDecode
    else if s.cursorLegal then
      match s.lut.entry? s.lp s.peek.toNat with
      | some (.leaf sym extra) => takeLeaf sym (extra.val + 1) s
      | some (.branch m) => takeBranch m s
      | some .empty => .next (s.raise .lutMiss)
      | none => .fault .layerNotAllocated
    else .fault .cursorOutOfBounds
  else .next (s.raise .lutNotBuilt)

/-- `while HDONE = 0: HUF_STEP` (R125), at most `fuel` times; a step that raises ends the command (R11).
DESIGN CHOICE, safe (log 13). -/
def decodeLoop : (fuel : Nat) → State → Result
  | 0, s => .next s
  | fuel + 1, s =>
    if s.hdone || s.fault.isSome then .next s
    else
      match decodeStep s with
      | .next t => decodeLoop fuel t
      | .fault r => .fault r
      | .refused r => .refused r

/-- `HUF_BUILD` (R123). -/
def execHufBuild (s : State) : Result := command true (fun s => .next (buildLut Config.huffCodes s)) s

/-- `HUF_STEP` (R124). -/
def execHufStep (s : State) : Result := command true decodeStep s

/-- `HUF_DECODE len`: `LUT_VALID` is required before anything is changed, then the load of `BC_LOAD`, then the loop,
which takes at most `8*len + 1` steps (R125, R126). -/
def execHufDecode (len : Value) (s : State) : Result :=
  command true (fun s =>
    if s.lutValid then
      if s.sourceHas len.toNat then decodeLoop (8 * len.toNat + 1) (s.loadCursor len.toNat)
      else .next (s.raise .truncatedInput)
    else .next (s.raise .lutNotBuilt)) s

end Sys2Proof.Machine
end

