-- ==== Sys2Proof/Machine/Varint.lean ====
section
/-! DEFINITION. The varint commands (R150 to R156). All arithmetic is of natural numbers (R153). -/
namespace Sys2Proof.Machine

/-- The loop of `VI_DEC` (R151): `rest` is the source from `IP` on, `i` the continuation index, `acc` the sum so far.
The overflow test follows every addition (corner cases (e), (f)). -/
def decodeContinuation : (rest : List Octet) → (i acc : Nat) → State → Result
  | [], _, _, s => .next (s.raise .truncatedInput)
  | c :: rest, i, acc, s =>
    let acc := acc + ((c.toNat &&& 0x7f) <<< (7 * i))
    if acc ≤ 2 ^ Config.viBits - 1 then
      if c.getLsbD 7 then decodeContinuation rest (i + 1) acc (s.advance 1)
      else .next ((s.advance 1).setResult acc)
    else .next ((s.advance 1).raise .varintOverflow)

/-- `VI_DEC` from its first octet (R151). -/
def decodeVarint (m : Nat) (s : State) : Result :=
  match s.source with
  | [] => .next (s.raise .truncatedInput)
  | b0 :: rest =>
    let p := b0.toNat &&& m
    if p < m then .next ((s.advance 1).setResult p)
    else decodeContinuation rest 0 m (s.advance 1)

/-- The octets the loop of `VI_ENC` emits for `v`, the last one included (R152). The first argument is fuel, at least
`v`; the test is the strict `v > 127` (C4). DESIGN CHOICE, safe (log 13). -/
def continuationOctets : (fuel v : Nat) → List Octet
  | 0, v => [BitVec.ofNat 8 v]
  | fuel + 1, v =>
    if v > 127 then BitVec.ofNat 8 (v % 128 ||| 0x80) :: continuationOctets fuel (v / 128)
    else [BitVec.ofNat 8 v]

/-- The octets `VI_ENC` emits for a value below `2^62` with the all-ones prefix `m` (R152, R81). The flags are OR-ed
into the first one unchecked (corner case (c), R225). -/
def varintOctets (m : Nat) (flags : Octet) (value : Nat) : List Octet :=
  if value < m then [flags ||| BitVec.ofNat 8 value]
  else (flags ||| BitVec.ofNat 8 m) :: continuationOctets (value - m) (value - m)

/-- `VI_DEC N` (R151). -/
def execViDec (n : BitVec 6) (s : State) : Result :=
  command (legalPrefix n) (decodeVarint (prefixMask n)) s

/-- `VI_ENC N, flags, value` (R152). -/
def execViEnc (n : BitVec 6) (flags : Octet) (value : Value) (s : State) : Result :=
  command (legalPrefix n) (fun s => .next (s.emit (varintOctets (prefixMask n) flags value.toNat))) s

end Sys2Proof.Machine
end

