-- ==== Sys2Proof/Machine/Dispatch.lean ====
section
/-! DEFINITION. One arm per command (R72). -/
namespace Sys2Proof.Machine

def exec (i : Instr) (s : State) : Host.Outcome State Fault Refusal :=
  match i with
  | .bcLoad len => Sys2Proof.Machine.execBcLoad len s
  | .bcPeek => Sys2Proof.Machine.execBcPeek s
  | .bcShift n => Sys2Proof.Machine.execBcShift n s
  | .bcRemain => Sys2Proof.Machine.execBcRemain s
  | .hufBuild => Sys2Proof.Machine.execHufBuild s
  | .hufStep => Sys2Proof.Machine.execHufStep s
  | .hufDecode len => Sys2Proof.Machine.execHufDecode len s
  | .viDec n => Sys2Proof.Machine.execViDec n s
  | .viEnc n flags value => Sys2Proof.Machine.execViEnc n flags value s

end Sys2Proof.Machine
end

