-- ==== Sys2Proof/Machine/HostMoves.lean ====
section
/-! DEFINITION. What each move of the host does (R215), and the engine taking the next one. -/
namespace Sys2Proof.Machine

/-- IssueCommand of a word: the command's rule, or `IllegalCommand`, or refusal while `FAULT` is not 0 (R180, R183). -/
def issueCommand (w : CmdWord) (s : State) : Result :=
  match decode w with
  | .ok i => exec i s
  | .error _ => command false (fun s => .next s) s

/-- LoadInput where it is allowed: `IN <- D; IN_LEN <- |D|; IP <- 0; CB <- 0; CL <- 0; RB <- 0; LP <- 0; HDONE <- 0`
(R215, D27). -/
def State.loadInput (d : List Octet) (s : State) : State :=
  ({ s with inBuf := d, ip := 0, cb := 0, cl := 0, rb := 0 } : State).startDecode

/-- A read move returns a value to the host and changes nothing of the block (R215). -/
def State.reply (r : Reply) (s : State) : State := { s with replies := s.replies ++ [r] }

/-- The effect of a host move (R215). LoadInput has none while `FAULT` is not 0 (R184); the reads and the resets are
always allowed. -/
def perform (m : HostMove) (s : State) : Result :=
  match m with
  | .hardReset => .next s.hardReset
  | .softReset => .next s.softReset
  | .loadInput d => if s.fault.isSome then .next s else .next (s.loadInput d)
  | .issue w => issueCommand w s
  | .readResult => .next (s.reply (.result s.result))
  | .readStatus => .next (s.reply (.status s.status))
  | .readOut => .next (s.reply (.out s.out))

/-- The host's next move has been taken from its queue. -/
def State.withPending (ms : List HostMove) (s : State) : State := { s with pending := ms }

/-- Take the host's next move and perform it to its end (R13, R215). While the host makes none, nothing changes. -/
def nextMove (s : State) : Result :=
  match s.pending with
  | [] => .next s
  | m :: ms => perform m (s.withPending ms)

end Sys2Proof.Machine
end

