-- ==== Sys2Proof/Machine/Step.lean ====
section
/-! DEFINITION. One step: the host's next move, performed to its end (R5, R215). -/
namespace Sys2Proof.Machine

/-- One step of the block under its host. The block fetches nothing (R70): the word it runs next is the host's next
IssueCommand. -/
def step (s : State) : Host.Outcome State Fault Refusal := nextMove s

/-- `s`, with the host about to issue the word whose bits are `w`, as spec/opcode_table.json numbers them, of which
`nbits` are given; every bit above is 0. DESIGN CHOICE, safe (log 2). -/
def State.withFetchWord (s : State) (nbits w : Nat) : State :=
  s.withPending (.issue (BitVec.ofNat 80 (w % 2 ^ nbits)) :: s.pending)

end Sys2Proof.Machine
end

