-- ==== Sys2Proof/Safety.lean ====
section
/-! DEFINITION. The terms claims are stated in: the invariants of R26, what a conforming host offers (R215, R216), the
properties of a code table (R170, R171), and the wire formats as the spec defines them apart from the commands (R77,
R81). Nothing here is read by a step. -/
namespace Sys2Proof.Machine

/-! ### States -/

/-- The lookup table has a root, every layer has 256 entries, and every `Branch` names an allocated layer other than
the root (R120, R51). -/
def Lut.wf (t : Lut) : Bool :=
  !t.isEmpty && t.all fun l =>
    l.length == Config.layerSize && l.all fun e =>
      match e with
      | .branch m => decide (0 < m ∧ m < t.length)
      | .leaf _ _ => true
      | .empty => true

/-- The invariants of R26, each under its number (I3, the window law, defines `W` here), and the form of the table. -/
structure State.Inv (s : State) : Prop where
  /-- I1 -/
  cursorInside : s.cb + s.cl ≤ s.inLen
  /-- I2 -/
  bitsInside : s.rb ≤ 8 * s.cl
  /-- I4 -/
  pointerInside : s.ip ≤ s.inLen
  /-- I5 -/
  layerAllocated : s.lp < s.lut.length
  /-- I5 -/
  rootWhenDone : s.hdone = true → s.lp = 0
  /-- I6 -/
  rootWhenNotBuilt : s.lutValid = false → s.lp = 0 ∧ s.hdone = false
  /-- R120 -/
  tableWf : Lut.wf s.lut = true

/-- A built table is the snapshot of the code table that the build takes (R30, R62). -/
def State.TableIsSnapshot (s : State) : Prop :=
  s.lutValid = true → build Config.huffCodes = .ok s.lut

/-- The block can take a command: `FAULT = 0` (R192). -/
abbrev State.Ready (s : State) : Prop := s.fault = none

/-- A move a conforming host may offer: LoadInput brings at most `IN_MAX` octets (R215). -/
def HostMove.Allowed : HostMove → Prop
  | .loadInput d => d.length ≤ Config.inMax.val
  | .hardReset => True
  | .softReset => True
  | .issue _ => True
  | .readResult => True
  | .readStatus => True
  | .readOut => True

/-- The buffer is within `IN_MAX` and the host conforms (R7, R20, R216). -/
structure State.Conforming (s : State) : Prop where
  inputBounded : s.inLen ≤ Config.inMax.val
  movesAllowed : ∀ m ∈ s.pending, m.Allowed

/-- The two moves that reset (R40). -/
def HostMove.isReset : HostMove → Bool
  | .hardReset => true
  | .softReset => true
  | .loadInput _ => false
  | .issue _ => false
  | .readResult => false
  | .readStatus => false
  | .readOut => false

/-! ### Sequences of commands -/

/-- Go on with `f` from a next state; a stop stays. -/
def andThen (r : Result) (f : State → Result) : Result :=
  match r with
  | .next s => f s
  | .fault r => .fault r
  | .refused r => .refused r

/-- The same command issued `k` times. -/
def execTimes (i : Instr) : Nat → State → Result
  | 0, s => .next s
  | k + 1, s => andThen (exec i s) (execTimes i k)

/-! ### Code tables (R170, R171) -/

/-- No entry's pattern is a prefix of another entry's pattern (R170, P3). -/
abbrev CodeTable.PrefixFree (codes : CodeTable) : Prop :=
  codes.Pairwise fun a b =>
    a.pattern.isPrefixOf b.pattern = false ∧ b.pattern.isPrefixOf a.pattern = false

/-- Every pattern has at least one bit, as `place` requires (R121). -/
abbrev CodeTable.NonEmpty (codes : CodeTable) : Prop := ∀ c ∈ codes, 1 ≤ c.len

/-- The codes by length, then by symbol, ascending (R171, P6). -/
def CodeTable.canonicalOrder (codes : CodeTable) : CodeTable :=
  codes.insertionSort fun a b => a.len < b.len ∨ (a.len = b.len ∧ a.sym ≤ b.sym)

/-- The pattern of a symbol, `CT[sym].pattern` (R11, R31). -/
def CodeTable.patternOf (codes : CodeTable) (sym : Nat) : List Bool :=
  match codes.find? (fun c => c.sym.val == sym) with
  | some c => c.pattern
  | none => []

/-- Follow `Branch` entries from layer `l` along the indices `p`: the layer with that prefix (R120). -/
def Lut.walk (t : Lut) : (l : Nat) → (p : List (BitVec 8)) → Option Nat
  | l, [] => some l
  | l, i :: p =>
    match t.entry? l i.toNat with
    | some (.branch m) => Lut.walk t m p
    | some (.leaf _ _) => none
    | some .empty => none
    | none => none

/-- The bits of a list of octets, each octet's bit 7 first (R52). -/
def bitsOfOctets (os : List Octet) : List Bool := os.flatMap fun o => bitsOfNat 8 o.toNat

/-! ### Wire formats -/

/-- Cut a bit string into `n` octets, the first bit of each its bit 7 (R77, R52). -/
def packOctets : (n : Nat) → List Bool → List Octet
  | 0, _ => []
  | n + 1, b => BitVec.ofNat 8 (natOfBits (b.take 8)) :: packOctets n (b.drop 8)

/-- The Huffman coding of a string of octets: the patterns end to end and the fewest 1 bits that fill the last octet
(R77). -/
def huffCoding (codes : CodeTable) (ss : List Octet) : List Octet :=
  let b := ss.flatMap fun s => CodeTable.patternOf codes s.toNat
  let pad := (8 - b.length % 8) % 8
  packOctets ((b.length + pad) / 8) (b ++ List.replicate pad true)

/-- `sum over i of g_i * 2^(7i)`, the payload of a list of continuation octets (R81). -/
def payload : List Octet → Nat
  | [] => 0
  | c :: cs => c.toNat % 128 + 128 * payload cs

/-- Bit 7 says that another continuation octet follows (R81). -/
abbrev Octet.continues (c : Octet) : Bool := c.getLsbD 7

end Sys2Proof.Machine
end

