-- ==== Sys2Proof/Certificates/Slice0/Obligations.lean ====
section
/-! DEFINITION. The statements for the provers, from the numbered rules of spec/. A state written out with `with` says
what a command changes and, by what it does not name, what it leaves unchanged. -/

open Sys2Proof Sys2Proof.Machine

/-! ### The interface: words, steps, host moves -/

/-- R70, R72: words written out from the spec's encoding decode to the commands they stand for (spec/95, L1, L2). -/
def Obligations.SampleWordsDecode : Prop :=
  decode 0x10000000000000000005 = .ok (.bcLoad 5) ∧
  decode 0x20000000000000000000 = .ok .bcPeek ∧
  decode 0x31800000000000000000 = .ok (.bcShift 6) ∧
  decode 0x40000000000000000000 = .ok .bcRemain ∧
  decode 0x50000000000000000000 = .ok .hufBuild ∧
  decode 0x60000000000000000000 = .ok .hufStep ∧
  decode 0x70000000000000000011 = .ok (.hufDecode 17) ∧
  decode 0x81400000000000000000 = .ok (.viDec 5) ∧
  decode 0x91b00000000000000011 = .ok (.viEnc 6 0xc0 17)

/-- R72: a word is a command exactly when it is accepted by a row of the opcode map, mask, match and range condition;
the command is the one the row names, and its operands are the word's fields. -/
def Obligations.DecoderIsTheOpcodeMap : Prop :=
  (∀ w, (∃ i, decode w = .ok i) ↔ ∃ r ∈ opcodeMap, r.accepts w = true) ∧
  (∀ w i, decode w = .ok i → ∃ r ∈ opcodeMap, r.accepts w = true ∧ r.mnemonic = i.mnemonic) ∧
  (∀ w i, decode w = .ok i →
    match i with
    | .bcLoad len => len = valueOf w
    | .bcPeek => True
    | .bcShift n => n = countOf w
    | .bcRemain => True
    | .hufBuild => True
    | .hufStep => True
    | .hufDecode len => len = valueOf w
    | .viDec n => n = countOf w
    | .viEnc n f v => n = countOf w ∧ f = flagsOf w ∧ v = valueOf w)

/-- R72: no word is the command of two rows. -/
def Obligations.OpcodeRowsDisjoint : Prop :=
  ∀ w r₁ r₂, r₁ ∈ opcodeMap → r₂ ∈ opcodeMap → r₁.accepts w = true → r₂.accepts w = true → r₁ = r₂

/-- Decode and encode agree on every well-formed instruction, every operand at every value its field admits. -/
def Obligations.DecodeOfEncode : Prop :=
  ∀ i : Instr, i.wf = true → decode (encode i) = .ok i

/-- Every command has one word: a word that decodes is the encoding of what it decodes to, which is well-formed. -/
def Obligations.EncodeOfDecode : Prop :=
  ∀ w i, decode w = .ok i → i.wf = true ∧ encode i = w

/-- R73: a word is illegal iff (a) its `op` is 0 or 10..15, or (b) a field its command does not use is non-zero, or (c)
its count is out of range; it then raises `IllegalCommand` and changes nothing else. -/
def Obligations.IllegalWords : Prop :=
  (∀ w, (∃ e, decode w = .error e) ↔
    ((opOf w).toNat = 0 ∨ 10 ≤ (opOf w).toNat) ∨
    ((opOf w).toNat ∈ [1, 2, 4, 5, 6, 7] ∧ countOf w ≠ 0) ∨
    ((opOf w).toNat ∈ [1, 2, 3, 4, 5, 6, 7, 8] ∧ flagsOf w ≠ 0) ∨
    ((opOf w).toNat ∈ [2, 3, 4, 5, 6, 8] ∧ valueOf w ≠ 0) ∨
    ((opOf w).toNat = 3 ∧ ((countOf w).toNat = 0 ∨ 33 ≤ (countOf w).toNat)) ∨
    ((opOf w).toNat ∈ [8, 9] ∧ ((countOf w).toNat ≤ 2 ∨ 9 ≤ (countOf w).toNat))) ∧
  (∀ w s e, decode w = .error e → s.Ready →
    issueCommand w s = .next { s with fault := some .illegalCommand })

/-- A step runs the decoded command: when the host's next move issues a word that decodes to `i`, the step is `exec` of
`i` in the state without that move. -/
def Obligations.StepRunsTheIssuedCommand : Prop :=
  ∀ s w rest i, s.pending = .issue w :: rest → decode w = .ok i →
    step s = exec i { s with pending := rest }

/-- Issuing the word of any instruction, well-formed or not, is running the instruction: an operand out of range raises
`IllegalCommand` in the meaning as in the decoder (R73, R104, R151, R152). -/
def Obligations.IssuedEncodingRunsExec : Prop :=
  ∀ i s, issueCommand (encode i) s = exec i s

/-- R215: the table of the host's moves. The host's queue is the model's own. -/
def Obligations.HostMoveTable : Prop :=
  ∀ s rest,
    (s.pending = .hardReset :: rest →
      step s = .next { State.reset with pending := rest, replies := s.replies }) ∧
    (s.pending = .softReset :: rest →
      step s = .next { State.reset with
        lut := s.lut, lutValid := s.lutValid, pending := rest, replies := s.replies }) ∧
    (∀ d, s.pending = .loadInput d :: rest → s.Ready →
      step s = .next { s with
        inBuf := d, ip := 0, cb := 0, cl := 0, rb := 0, lp := 0, hdone := false, pending := rest }) ∧
    (∀ d c, s.pending = .loadInput d :: rest → s.fault = some c → step s = .next { s with pending := rest }) ∧
    (∀ w, s.pending = .issue w :: rest → step s = issueCommand w { s with pending := rest }) ∧
    (s.pending = .readResult :: rest →
      step s = .next { s with pending := rest, replies := s.replies ++ [.result s.result] }) ∧
    (s.pending = .readStatus :: rest →
      step s = .next { s with pending := rest, replies := s.replies ++ [.status s.status] }) ∧
    (s.pending = .readOut :: rest →
      step s = .next { s with pending := rest, replies := s.replies ++ [.out s.out] })

/-! ### State, reset, status -/

/-- R20, the column "after hard reset", item by item, for power-on and for a hard reset from any state. -/
def Obligations.HardResetItems : Prop :=
  ∀ s h : State, (h = State.reset ∨ h = s.hardReset) →
    h.inBuf = [] ∧ h.inLen = 0 ∧ h.ip = 0 ∧ h.cb = 0 ∧ h.cl = 0 ∧ h.rb = 0 ∧
    h.window = 0xFFFFFFFF ∧ h.validBits = 0 ∧ h.lp = 0 ∧ h.hdone = false ∧
    h.lut = [List.replicate 256 .empty] ∧ h.lutValid = false ∧ h.out = [] ∧ h.result = 0 ∧
    h.faultCode = 0 ∧ h.status = 0x00

/-- R40: hard reset puts every item to its value after hard reset, soft reset does the same but keeps `LUT` and
`LUT_VALID`; either reset is the only way to clear `FAULT`. The values are those `Obligations.HardResetItems` lists.
`pending` and `replies` are the model's own and no reset touches them (assumption log 4). -/
def Obligations.TwoResets : Prop :=
  (∀ s : State, s.hardReset = { State.reset with pending := s.pending, replies := s.replies } ∧
    s.hardReset.lutValid = false ∧ s.hardReset.lut = [List.replicate 256 .empty]) ∧
  (∀ s : State, s.softReset = { State.reset with
    lut := s.lut, lutValid := s.lutValid, pending := s.pending, replies := s.replies }) ∧
  (∀ s t c, s.fault = some c → step s = .next t →
    t.fault = some c ∨ ∃ m rest, s.pending = m :: rest ∧ m.isReset = true ∧ t.fault = none)

/-- R33: the fields of `STATUS`, and its values after the two resets. -/
def Obligations.StatusLayout : Prop :=
  (∀ s : State,
    s.status.extractLsb' 0 4 = s.faultCode ∧
    s.status.getLsbD 4 = s.lutValid ∧
    s.status.getLsbD 5 = s.hdone ∧
    s.status.extractLsb' 6 2 = 0 ∧
    s.faultCode.toNat ≤ 7 ∧ (s.faultCode = 0 ↔ s.fault = none)) ∧
  (∀ s : State, s.hardReset.status = 0x00 ∧ (s.softReset.status = 0x00 ∨ s.softReset.status = 0x10) ∧
    s.softReset.status.getLsbD 4 = s.status.getLsbD 4)

/-- R26, first half: the invariants hold after reset. -/
def Obligations.ResetSatisfiesInvariants : Prop :=
  State.reset.Inv ∧ State.reset.TableIsSnapshot ∧ State.reset.Conforming

/-- R26: the invariants are kept by every command and every host move, from every state that satisfies them. -/
def Obligations.StepKeepsInvariants : Prop :=
  ∀ s t : State, s.Inv → step s = .next t → t.Inv

/-- R180, R51: from every state that satisfies the invariants a step answers a next state: no command hangs, none reads
an octet of `IN` or a layer that does not exist, and a word given while `FAULT` is not 0 changes nothing. -/
def Obligations.NoStepStops : Prop :=
  ∀ s : State, s.Inv →
    (∃ t, step s = .next t) ∧
    (∀ i, ∃ t, exec i s = .next t) ∧
    (∀ w c, s.fault = some c → issueCommand w s = .next s)

/-- R7, R215, R216: under a conforming host the input buffer stays within `IN_MAX`, so that `RB` fits in `RESULT`. -/
def Obligations.ConformingHostBoundsInput : Prop :=
  (∀ s t : State, s.Conforming → step s = .next t → t.Conforming) ∧
  (∀ s : State, s.Inv → s.Conforming → s.rb < 2 ^ 62)

/-! ### The bit cursor -/

/-- R24, with the stream of R23: `W[31 - j] = S[POS + j]`, where a real bit comes from the octet of `IN` that R23 names
and every later bit is 1; `W` is a function of `IN`, `CB`, `CL`, `RB`; it is all ones when `RB = 0`, and its low
`32 - RB` bits are ones when `RB < 32`. -/
def Obligations.WindowLaw : Prop :=
  (∀ s : State, s.cb + s.cl ≤ s.inLen → s.rb ≤ 8 * s.cl → ∀ j < 32,
    let k := 8 * s.cl - s.rb + j
    (k < 8 * s.cl → ∃ o, s.readIn (s.cb + k / 8) = some o ∧ s.window.getLsbD (31 - j) = o.getLsbD (7 - k % 8)) ∧
    (8 * s.cl ≤ k → s.window.getLsbD (31 - j) = true)) ∧
  (∀ s u : State, s.inBuf = u.inBuf → s.cb = u.cb → s.cl = u.cl → s.rb = u.rb → s.window = u.window) ∧
  (∀ s : State, s.rb = 0 → s.window = 0xFFFFFFFF) ∧
  (∀ s : State, s.rb ≤ 8 * s.cl → ∀ j < 32 - s.rb, s.window.getLsbD j = true)

/-- R25: `VB = min(RB, 32)`, within 0..32, and the two tests in which it agrees with `RB`; the real bits of the window
are its first `VB`. -/
def Obligations.ValidBitsDerived : Prop :=
  ∀ s : State,
    s.validBits = min s.rb 32 ∧ s.validBits ≤ 32 ∧
    (s.rb > 0 ↔ s.validBits > 0) ∧ (s.rb < 8 ↔ s.validBits < 8) ∧
    (s.rb ≤ 8 * s.cl → ∀ j < 32, (j < s.validBits ↔ 8 * s.cl - s.rb + j < 8 * s.cl))

/-- R101: `peek()` is the next 8 bits of the stream, the first in bit 7, and is `W[31:24]`; `shift(n)` takes `n` from
`RB`, not below 0, and touches nothing else; the new window is the old one moved up by `n` and refilled from the stream;
with `n >= RB` the counter is 0 and the window all ones. -/
def Obligations.PeekAndShift : Prop :=
  (∀ s : State, s.peek = s.window.extractLsb' 24 8 ∧ ∀ j < 8, s.peek.getLsbD (7 - j) = s.streamBit (s.pos + j)) ∧
  (∀ (s : State) (n : Nat), 1 ≤ n → n ≤ 32 → s.shift n = { s with rb := if n ≤ s.rb then s.rb - n else 0 }) ∧
  (∀ (s : State) (n : Nat), 1 ≤ n → n ≤ 32 → s.rb ≤ 8 * s.cl → ∀ j < 32,
    (s.shift n).window.getLsbD (31 - j) =
      if j + n < 32 then s.window.getLsbD (31 - (j + n)) else s.streamBit (s.pos + j + n)) ∧
  (∀ (s : State) (n : Nat), s.rb ≤ n → (s.shift n).rb = 0 ∧ (s.shift n).window = 0xFFFFFFFF)

/-- R102, R53: `BC_LOAD len`, both outcomes; after it the window holds the first four octets of the sequence, first octet
uppermost, `0xFF` for each that does not exist. -/
def Obligations.BcLoadRule : Prop :=
  ∀ (s : State) (len : Value), s.Ready →
    (s.ip + len.toNat ≤ s.inLen →
      exec (.bcLoad len) s = .next { s with
        cb := s.ip, cl := len.toNat, rb := 8 * len.toNat, ip := s.ip + len.toNat, lp := 0, hdone := false } ∧
      ∀ t, exec (.bcLoad len) s = .next t → ∀ j < 4, some (t.window.extractLsb' (24 - 8 * j) 8) =
        if j < len.toNat then s.readIn (s.ip + j) else some 0xFF) ∧
    (s.inLen < s.ip + len.toNat →
      exec (.bcLoad len) s = .next { s with fault := some .truncatedInput })

/-- R103: `BC_PEEK` writes the next 8 bits, zero-extended; the bits past the real ones are 1s, `0xFF` when there are no
real ones; a second one gives the same value. -/
def Obligations.BcPeekRule : Prop :=
  ∀ s : State, s.Ready → s.cb + s.cl ≤ s.inLen → s.rb ≤ 8 * s.cl →
    ∃ t, exec .bcPeek s = .next t ∧
      t = { s with result := (s.window.extractLsb' 24 8).setWidth 62 } ∧
      (∀ j < 8 - s.rb, t.result.getLsbD j = true) ∧
      (s.rb = 0 → t.result = 0xFF) ∧
      exec .bcPeek t = .next t

/-- R104, R101: `BC_SHIFT n` for `n` in 1..32 takes `n` from `RB`, clamped at 0, and touches neither `LP` nor `HDONE`
nor anything else; with `n >= RB` the window becomes all ones; `n = 32` replaces all of it; out of range it raises
`IllegalCommand`; shifts accumulate. -/
def Obligations.BcShiftRule : Prop :=
  ∀ s : State, s.Ready →
    (∀ n : BitVec 6, 1 ≤ n.toNat → n.toNat ≤ 32 → exec (.bcShift n) s = .next { s with rb := s.rb - n.toNat }) ∧
    (∀ n : BitVec 6, n.toNat = 0 ∨ 32 < n.toNat →
      exec (.bcShift n) s = .next { s with fault := some .illegalCommand }) ∧
    (∀ (n : BitVec 6) (t : State), s.rb ≤ n.toNat → n.toNat ≤ 32 → exec (.bcShift n) s = .next t →
      t.rb = 0 ∧ t.window = 0xFFFFFFFF) ∧
    (∀ t, s.rb ≤ 8 * s.cl → exec (.bcShift 32) s = .next t →
      ∀ j < 32, t.window.getLsbD (31 - j) = s.streamBit (s.pos + 32 + j)) ∧
    (∀ a b c : BitVec 6, 1 ≤ a.toNat → 1 ≤ b.toNat → c.toNat = a.toNat + b.toNat → c.toNat ≤ 32 →
      andThen (exec (.bcShift a) s) (exec (.bcShift b)) = exec (.bcShift c) s)

/-- R105: `BC_REMAIN` writes `RESULT` and nothing else, in every ready state; the value is `RB`, zero-extended, wherever
62 bits hold `RB`, as they do under a conforming host (R29). What a larger `RB`, which no such host brings about, leaves
in `RESULT` is not said here (assumption log 17). -/
def Obligations.BcRemainRule : Prop :=
  ∀ s : State, s.Ready →
    ∃ t, exec .bcRemain s = .next t ∧ t = { s with result := t.result } ∧
      (s.rb < 2 ^ 62 → t.result.toNat = s.rb) ∧
      (s.Inv → s.Conforming → t.result.toNat = s.rb)

/-- R106: with a legal word, `BC_PEEK`, `BC_SHIFT` and `BC_REMAIN` never fault, whatever the table, and `BC_LOAD` faults
only for want of source octets. -/
def Obligations.CursorCommandsNeverFault : Prop :=
  (∀ (s : State) (i : Instr), s.Ready → s.cb + s.cl ≤ s.inLen → s.rb ≤ 8 * s.cl → i.wf = true →
    (i = .bcPeek ∨ i = .bcRemain ∨ ∃ n, i = .bcShift n) →
    ∃ t, exec i s = .next t ∧ t.fault = none) ∧
  (∀ (s t : State) (len : Value) (c : FaultCause), s.Ready → exec (.bcLoad len) s = .next t → t.fault = some c →
    c = .truncatedInput ∧ s.inLen < s.ip + len.toNat) ∧
  (∀ (s t : State) (i : Instr) (lut : Lut) (lutValid : Bool),
    (i = .bcPeek ∨ i = .bcRemain ∨ (∃ n, i = .bcShift n) ∨ ∃ len, i = .bcLoad len) → exec i s = .next t →
    exec i { s with lut := lut, lutValid := lutValid } = .next { t with lut := lut, lutValid := lutValid })

/-- The frame of the cursor commands: `BC_PEEK` and `BC_REMAIN` change `RESULT` only, `BC_SHIFT` `RB` only (and `FAULT`
for an illegal count), `BC_LOAD` the cursor, `IP`, `LP`, `HDONE` and `FAULT` only. None stores: every octet of `IN` and
`OUT` and every entry of `LUT` reads as before. -/
def Obligations.CursorFrame : Prop :=
  ∀ (s t : State) (i : Instr), exec i s = .next t →
    (i = .bcPeek ∨ i = .bcRemain → t = { s with result := t.result }) ∧
    (∀ n, i = .bcShift n → t = { s with rb := t.rb, fault := t.fault } ∧ (legalShift n = true → t.fault = s.fault)) ∧
    (∀ len, i = .bcLoad len → t = { s with
      ip := t.ip, cb := t.cb, cl := t.cl, rb := t.rb, lp := t.lp, hdone := t.hdone, fault := t.fault }) ∧
    (i = .bcPeek ∨ i = .bcRemain ∨ (∃ n, i = .bcShift n) ∨ (∃ len, i = .bcLoad len) →
      (∀ a, t.readIn a = s.readIn a) ∧ (∀ a, t.readOut a = s.readOut a) ∧
      (∀ l a, t.lut.entry? l a = s.lut.entry? l a))

/-! ### The code table and the lookup table -/

/-- R170, R171: the named properties of the supplied `HUFF_CODES`, P1 to P8; its rows are
assumption log 12. -/
def Obligations.CodeTableProperties : Prop :=
  Config.huffCodes.map (fun c => c.sym.val) = List.range 257 ∧
  (∀ c ∈ Config.huffCodes, 5 ≤ c.len ∧ c.len ≤ 30 ∧ c.bits < 2 ^ c.len) ∧
  (∃ c ∈ Config.huffCodes, c.len = 5) ∧ (∃ c ∈ Config.huffCodes, c.len = 30) ∧
  CodeTable.PrefixFree Config.huffCodes ∧
  (Config.huffCodes.map fun c => 2 ^ (30 - c.len)).sum = 2 ^ 30 ∧
  CodeTable.patternOf Config.huffCodes 256 = List.replicate 30 true ∧
  (∀ c ∈ Config.huffCodes, c.pattern.all id = true → c.sym = 256) ∧
  (∀ c, (CodeTable.canonicalOrder Config.huffCodes).head? = some c → c.bits = 0) ∧
  (CodeTable.canonicalOrder Config.huffCodes).IsChain (fun a b => b.bits = (a.bits + 1) <<< (b.len - a.len)) ∧
  ((List.range 31).map fun n => Config.huffCodes.countP fun c => c.len == n) =
    [0, 0, 0, 0, 0, 10, 26, 32, 6, 0, 5, 3, 2, 6, 2, 3, 0, 0, 0, 3, 8, 13, 26, 29, 12, 4, 15, 19, 29, 0, 4] ∧
  huffCoding Config.huffCodes [0x58] = [0xfc] ∧
  huffCoding Config.huffCodes [0x33, 0x30, 0x32] = [0x64, 0x02] ∧
  huffCoding Config.huffCodes [0x70, 0x72, 0x69, 0x76, 0x61, 0x74, 0x65] = [0xae, 0xc3, 0x77, 0x1a, 0x4b]

/-- R121, R123: a build succeeds exactly on a prefix-free code table; on any other it ends in a collision. For every
table in the place of `HUFF_CODES` whose patterns have at least one bit. -/
def Obligations.BuildSucceedsIffPrefixFree : Prop :=
  ∀ codes : CodeTable, CodeTable.NonEmpty codes →
    ((∃ t, build codes = .ok t) ↔ CodeTable.PrefixFree codes)

/-- R120, "Meaning of an entry", for every code table that builds: in the layer with prefix `p` entry `i` is
`Leaf(sym, l)` iff the pattern of `sym` is `p` and the top `l` bits of `i`; it is a `Branch` iff some longer pattern
begins with `p` and `i`, and the layer it names has that prefix; it is `Empty` iff neither. -/
def Obligations.EntryMeaning : Prop :=
  ∀ (codes : CodeTable) (t : Lut), CodeTable.NonEmpty codes → build codes = .ok t →
    ∀ (p : List (BitVec 8)) (l : Nat), Lut.walk t 0 p = some l → ∀ i : BitVec 8,
      (∀ sym x, t.entry? l i.toNat = some (.leaf sym x) ↔
        ∃ c ∈ codes, c.sym = sym ∧ c.pattern = bitsOfOctets p ++ (bitsOfNat 8 i.toNat).take (x.val + 1)) ∧
      ((∃ m, t.entry? l i.toNat = some (.branch m)) ↔
        ∃ c ∈ codes, bitsOfOctets (p ++ [i]) <+: c.pattern ∧ 8 * p.length + 8 < c.pattern.length) ∧
      (∀ m, t.entry? l i.toNat = some (.branch m) → Lut.walk t 0 (p ++ [i]) = some m) ∧
      (t.entry? l i.toNat = some .empty ↔
        (∀ sym x, t.entry? l i.toNat ≠ some (.leaf sym x)) ∧ ∀ m, t.entry? l i.toNat ≠ some (.branch m))

/-- R122: the table built from the supplied `HUFF_CODES` (assumption log 12): 15 layers with the prefixes listed, no `Empty` entry, the
`Branch` entries listed, and the sample entries (layer, first index, last index, entry). -/
def Obligations.SuppliedTable : Prop :=
  ∃ t, build Config.huffCodes = .ok t ∧ t.length = 15 ∧
    (∀ l ∈ t, l.length = 256 ∧ Entry.empty ∉ l) ∧
    (t.map fun l => l.countP fun e => match e with | .leaf _ _ => true | .branch _ => false | .empty => false) =
      [254, 254, 246, 256, 256, 256, 256, 256, 256, 256, 256, 256, 256, 256, 256] ∧
    (t.map fun l => l.zipIdx.filterMap fun e =>
        match e.1 with | .branch m => some (e.2, m) | .leaf _ _ => none | .empty => none) =
      [[(0xfe, 5), (0xff, 1)], [(0xfe, 6), (0xff, 2)],
       [(0xf6, 8), (0xf7, 13), (0xf8, 7), (0xf9, 9), (0xfa, 12), (0xfb, 10), (0xfc, 11), (0xfd, 14), (0xfe, 3),
        (0xff, 4)],
       [], [], [], [], [], [], [], [], [], [], [], []] ∧
    (∀ e ∈ ([([], 0), ([0xff], 1), ([0xff, 0xff], 2), ([0xff, 0xff, 0xfe], 3), ([0xff, 0xff, 0xff], 4), ([0xfe], 5),
        ([0xff, 0xfe], 6), ([0xff, 0xff, 0xf8], 7), ([0xff, 0xff, 0xf6], 8), ([0xff, 0xff, 0xf9], 9),
        ([0xff, 0xff, 0xfb], 10), ([0xff, 0xff, 0xfc], 11), ([0xff, 0xff, 0xfa], 12), ([0xff, 0xff, 0xf7], 13),
        ([0xff, 0xff, 0xfd], 14)] : List (List (BitVec 8) × Nat)), Lut.walk t 0 e.1 = some e.2) ∧
    (∀ e ∈ ([(0, 0x00, 0x07, .leaf 48 4), (0, 0x08, 0x0f, .leaf 49 4), (0, 0x18, 0x1f, .leaf 97 4),
        (0, 0x50, 0x53, .leaf 32 5), (0, 0x54, 0x57, .leaf 37 5), (0, 0xb8, 0xb9, .leaf 58 6), (0, 0xf8, 0xf8, .leaf 38 7),
        (0, 0xfc, 0xfc, .leaf 88 7), (0, 0xfd, 0xfd, .leaf 90 7),
        (5, 0x00, 0x3f, .leaf 33 1), (5, 0x40, 0x7f, .leaf 34 1), (5, 0x80, 0xbf, .leaf 40 1), (5, 0xc0, 0xff, .leaf 41 1),
        (1, 0x00, 0x3f, .leaf 63 1), (1, 0x40, 0x5f, .leaf 39 2), (1, 0x60, 0x7f, .leaf 43 2), (1, 0x80, 0x9f, .leaf 124 2),
        (1, 0xa0, 0xaf, .leaf 35 3), (1, 0xb0, 0xbf, .leaf 62 3), (1, 0xc0, 0xc7, .leaf 0 4), (1, 0xc8, 0xcf, .leaf 36 4),
        (1, 0xfa, 0xfb, .leaf 96 6), (1, 0xfc, 0xfd, .leaf 123 6),
        (4, 0x00, 0x0f, .leaf 19 3), (4, 0xb0, 0xbf, .leaf 31 3), (4, 0xc0, 0xcf, .leaf 127 3), (4, 0xf4, 0xf7, .leaf 13 5),
        (4, 0xf8, 0xfb, .leaf 22 5), (4, 0xfc, 0xff, .leaf 256 5)] : List (Nat × Nat × Nat × Entry)),
      ∀ k < e.2.2.1 + 1 - e.2.1, t.entry? e.1 (e.2.1 + k) = some e.2.2.2) ∧
    (t.map fun l => l.countP fun e => match e with | .leaf s _ => s == 256 | .branch _ => false | .empty => false) =
      [0, 0, 0, 0, 4, 0, 0, 0, 0, 0, 0, 0, 0, 0, 0]

/-- R123: `HUF_BUILD` installs the finished table and sets `LUT_VALID`; a second one changes nothing; with a code table
whose build collides, `LUT` is the partly built table, `LUT_VALID` stays 0 and `BuildCollision` is raised. -/
def Obligations.HufBuildRule : Prop :=
  (∃ t, build Config.huffCodes = .ok t ∧ ∀ s : State, s.Ready → s.lutValid = false →
    exec .hufBuild s = .next { s with lut := t, lutValid := true }) ∧
  (∀ s : State, s.Ready → s.lutValid = true → exec .hufBuild s = .next s) ∧
  (∀ (codes : CodeTable) (s : State) (t : Lut), s.lutValid = false →
    (build codes = .ok t → buildLut codes s = { s with lut := t, lutValid := true }) ∧
    (build codes = .error t → buildLut codes s = { s with lut := t, fault := some .buildCollision }))

/-- R30, R61, R62: once the table is built it never changes but by a hard reset. -/
def Obligations.TableImmutableOnceBuilt : Prop :=
  ∀ s t : State, s.lutValid = true → step s = .next t → (∀ rest, s.pending ≠ .hardReset :: rest) →
    t.lut = s.lut ∧ t.lutValid = true

/-- R30, R62: a built table is the snapshot of the code table, here the supplied one (assumption log 12), and every step keeps that. -/
def Obligations.StepKeepsSnapshot : Prop :=
  ∀ s t : State, s.TableIsSnapshot → step s = .next t → t.TableIsSnapshot

/-- R181, R171 (P3, P4): with the supplied table (assumption log 12) no step from a state that satisfies the invariants raises `LutMiss` or
`BuildCollision`. -/
def Obligations.NoMissNoCollision : Prop :=
  ∀ (s t : State) (c : FaultCause), s.Inv → s.TableIsSnapshot → s.Ready → step s = .next t → t.fault = some c →
    c ≠ .lutMiss ∧ c ≠ .buildCollision

/-! ### The Huffman decoder -/

/-- R124: one iteration of the decode loop, arm by arm; `extra + 1` is the leaf's length in its layer. -/
def Obligations.HufStepRule : Prop :=
  ∀ s : State, s.Ready →
    (s.lutValid = false → exec .hufStep s = .next { s with fault := some .lutNotBuilt }) ∧
    (s.lutValid = true → s.hdone = true → exec .hufStep s = .next s) ∧
    (s.lutValid = true → s.hdone = false → s.rb = 0 →
      exec .hufStep s = .next { s with hdone := true, lp := 0 }) ∧
    (s.lutValid = true → s.hdone = false → 0 < s.rb → s.cb + s.cl ≤ s.inLen → s.rb ≤ 8 * s.cl →
      (∀ sym extra, s.lut.entry? s.lp (s.window.extractLsb' 24 8).toNat = some (.leaf sym extra) → sym ≠ 256 →
        exec .hufStep s = .next { s with
          out := s.out ++ [BitVec.ofNat 8 sym.val], rb := s.rb - (extra.val + 1), lp := 0 }) ∧
      (∀ extra, s.lut.entry? s.lp (s.window.extractLsb' 24 8).toNat = some (.leaf 256 extra) →
        exec .hufStep s = .next { s with fault := some .huffEos }) ∧
      (∀ m, s.lut.entry? s.lp (s.window.extractLsb' 24 8).toNat = some (.branch m) → s.rb < 8 →
        exec .hufStep s = .next { s with rb := 0, hdone := true, lp := 0 }) ∧
      (∀ m, s.lut.entry? s.lp (s.window.extractLsb' 24 8).toNat = some (.branch m) → 8 ≤ s.rb →
        exec .hufStep s = .next { s with rb := s.rb - 8, lp := m }) ∧
      (s.lut.entry? s.lp (s.window.extractLsb' 24 8).toNat = some .empty →
        exec .hufStep s = .next { s with fault := some .lutMiss }))

/-- R126: a step that begins with `HDONE = 0` and does not fault sets `HDONE` or lowers `RB`. -/
def Obligations.HufStepProgress : Prop :=
  ∀ s t : State, s.Ready → s.lutValid = true → s.hdone = false → exec .hufStep s = .next t → t.fault = none →
    t.hdone = true ∨ t.rb < s.rb

/-- R126, R235: from the root, with the supplied table (assumption log 12), four steps reach a symbol, the end or a fault. -/
def Obligations.FourLookupsPerSymbol : Prop :=
  ∀ s t : State, s.TableIsSnapshot → s.Ready → s.lutValid = true → s.hdone = false → s.lp = 0 →
    execTimes .hufStep 4 s = .next t →
    t.hdone = true ∨ t.fault ≠ none ∨ s.out.length < t.out.length

/-- R125, "Equivalence": with the table built, `HUF_DECODE len` is `BC_LOAD len` followed by any number of `HUF_STEP`s
that is at least `8*len + 1`: so many are enough (R126), and further ones do nothing. -/
def Obligations.HufDecodeIsLoadThenSteps : Prop :=
  ∀ (s : State) (len : Value) (k : Nat), s.lutValid = true → 8 * len.toNat + 1 ≤ k →
    exec (.hufDecode len) s = andThen (exec (.bcLoad len) s) (execTimes .hufStep k)

/-- R125, R126: `HUF_DECODE` always ends. Either the decode has stopped, with nothing left and the root selected, or a
step raised `HuffEos` or `LutMiss`; the cursor was loaded and `OUT` only grew. -/
def Obligations.HufDecodeEnds : Prop :=
  ∀ (s : State) (len : Value), s.Inv → s.Ready → s.lutValid = true → s.ip + len.toNat ≤ s.inLen →
    ∃ t os, exec (.hufDecode len) s = .next t ∧
      t = { s with
        cb := s.ip, cl := len.toNat, ip := s.ip + len.toNat, out := s.out ++ os,
        rb := t.rb, lp := t.lp, hdone := t.hdone, fault := t.fault } ∧
      ((t.fault = none ∧ t.hdone = true ∧ t.rb = 0 ∧ t.window = 0xFFFFFFFF ∧ t.lp = 0) ∨
       ((t.fault = some .huffEos ∨ t.fault = some .lutMiss) ∧ t.hdone = false))

/-- R125, R183: the order of the checks of `HUF_DECODE`, and the empty string, which decodes to nothing. -/
def Obligations.HufDecodeChecks : Prop :=
  ∀ (s : State) (len : Value), s.Ready →
    (s.lutValid = false → exec (.hufDecode len) s = .next { s with fault := some .lutNotBuilt }) ∧
    (s.lutValid = true → s.inLen < s.ip + len.toNat →
      exec (.hufDecode len) s = .next { s with fault := some .truncatedInput }) ∧
    (s.lutValid = true → s.ip ≤ s.inLen →
      exec (.hufDecode 0) s = .next { s with cb := s.ip, cl := 0, rb := 0, lp := 0, hdone := true })

/-- R127, with the supplied table (assumption log 12): on the Huffman coding of any octets, `HUF_DECODE` appends exactly those octets and does not fault. -/
def Obligations.HufDecodeWellFormed : Prop :=
  ∀ (s : State) (len : Value) (ss rest : List Octet), s.TableIsSnapshot → s.Ready → s.lutValid = true →
    s.inBuf.drop s.ip = huffCoding Config.huffCodes ss ++ rest →
    len.toNat = (huffCoding Config.huffCodes ss).length → s.ip ≤ s.inLen →
    exec (.hufDecode len) s = .next { s with
      cb := s.ip, cl := len.toNat, ip := s.ip + len.toNat, out := s.out ++ ss, rb := 0, lp := 0, hdone := true }

/-- R128, R222, three examples, with the supplied table (assumption log 12): the lenient decode of three malformed
strings: `18` yields two symbols, `ff ff ff` none, both without a
fault; `ff ff ff ff` raises `HuffEos` with `RB = 8` at the fourth lookup. -/
def Obligations.LenientPadding : Prop :=
  ∀ (s : State) (rest : List Octet), s.TableIsSnapshot → s.Ready → s.lutValid = true → s.ip ≤ s.inLen →
    (s.inBuf.drop s.ip = 0x18 :: rest →
      exec (.hufDecode 1) s = .next { s with
        cb := s.ip, cl := 1, ip := s.ip + 1, out := s.out ++ [0x61, 0x61], rb := 0, lp := 0, hdone := true }) ∧
    (s.inBuf.drop s.ip = 0xff :: 0xff :: 0xff :: rest →
      exec (.hufDecode 3) s = .next { s with
        cb := s.ip, cl := 3, ip := s.ip + 3, rb := 0, lp := 0, hdone := true }) ∧
    (s.inBuf.drop s.ip = 0xff :: 0xff :: 0xff :: 0xff :: rest →
      exec (.hufDecode 4) s = .next { s with
        cb := s.ip, cl := 4, ip := s.ip + 4, rb := 8, lp := 4, hdone := false, fault := some .huffEos })

/-- R128, with the supplied table (assumption log 12): what the decoder makes of whole patterns followed by any `tail` of
real bits that ends the data. (a), (d): a tail that, filled up with 1s to whole octets, is a proper beginning of some
pattern is dropped silently. (b): a tail that virtual 1s complete to the pattern of an octet, with at least one real bit in
the last layer, yields that octet. (c): up to 24 one-bits are dropped silently; 25 or more raise `HuffEos` in the layer
with prefix `ffffff`, `RB` being what is left after the three branches. -/
def Obligations.LenientDecoding : Prop :=
  ∀ (s : State) (len : Value) (ss d rest : List Octet) (tail : List Bool),
    s.TableIsSnapshot → s.Ready → s.lutValid = true → s.ip ≤ s.inLen →
    s.inBuf.drop s.ip = d ++ rest → len.toNat = d.length →
    bitsOfOctets d = (ss.flatMap fun o => CodeTable.patternOf Config.huffCodes o.toNat) ++ tail →
    (∀ c ∈ Config.huffCodes, ∀ j < 8, tail ++ List.replicate j true <+: c.pattern → 8 ∣ tail.length + j →
      tail.length + j < c.pattern.length →
      exec (.hufDecode len) s = .next { s with
        cb := s.ip, cl := len.toNat, ip := s.ip + len.toNat, out := s.out ++ ss, rb := 0, lp := 0, hdone := true }) ∧
    (∀ (o : Octet) (j : Nat), CodeTable.patternOf Config.huffCodes o.toNat = tail ++ List.replicate j true → 0 < j →
      8 * ((tail.length + j - 1) / 8) < tail.length →
      exec (.hufDecode len) s = .next { s with
        cb := s.ip, cl := len.toNat, ip := s.ip + len.toNat, out := s.out ++ ss ++ [o], rb := 0, lp := 0,
        hdone := true }) ∧
    (∀ k, tail = List.replicate k true →
      (k ≤ 24 → exec (.hufDecode len) s = .next { s with
        cb := s.ip, cl := len.toNat, ip := s.ip + len.toNat, out := s.out ++ ss, rb := 0, lp := 0, hdone := true }) ∧
      (25 ≤ k → exec (.hufDecode len) s = .next { s with
        cb := s.ip, cl := len.toNat, ip := s.ip + len.toNat, out := s.out ++ ss, rb := k - 24, lp := 4, hdone := false,
        fault := some .huffEos }))

/-- R231: one `HUF_DECODE len` appends at most `ceil(8*len / 5)` octets, with the supplied table (assumption
log 12). -/
def Obligations.HufDecodeOutputBound : Prop :=
  ∀ (s t : State) (len : Value), s.TableIsSnapshot → s.Ready → s.lutValid = true →
    exec (.hufDecode len) s = .next t →
    t.out.length ≤ s.out.length + (8 * len.toNat + 4) / 5

/-- The frame of the Huffman commands: `HUF_BUILD` changes `LUT`, `LUT_VALID` and `FAULT` only; `HUF_STEP` `RB`, `LP`,
`HDONE`, `FAULT` and the end of `OUT` only; `HUF_DECODE` the cursor and `IP` besides. `HUF_STEP` stores at most the one
octet at index `|OUT|`; every octet of `IN`, every octet of `OUT` emitted before, and, but for `HUF_BUILD`, every entry
of `LUT` reads as before. -/
def Obligations.HuffmanFrame : Prop :=
  ∀ (s t : State) (i : Instr), exec i s = .next t →
    (i = .hufBuild → t = { s with lut := t.lut, lutValid := t.lutValid, fault := t.fault }) ∧
    (i = .hufStep → t = { s with rb := t.rb, lp := t.lp, hdone := t.hdone, out := t.out, fault := t.fault } ∧
      ∀ a, a ≠ s.out.length → t.readOut a = s.readOut a) ∧
    (∀ len, i = .hufDecode len → t = { s with
      ip := t.ip, cb := t.cb, cl := t.cl, rb := t.rb, lp := t.lp, hdone := t.hdone, out := t.out, fault := t.fault }) ∧
    (i = .hufBuild ∨ i = .hufStep ∨ (∃ len, i = .hufDecode len) →
      (∀ a, t.readIn a = s.readIn a) ∧ (∀ a < s.out.length, t.readOut a = s.readOut a)) ∧
    (i = .hufBuild → ∀ a, t.readOut a = s.readOut a) ∧
    (i = .hufStep ∨ (∃ len, i = .hufDecode len) → ∀ l a, t.lut.entry? l a = s.lut.entry? l a)

/-! ### The varint unit -/

/-- R151, R81: `VI_DEC N`, every outcome: a prefix width outside 3..8; the source exhausted at the first
octet; a value below the all-ones prefix; a value with continuation octets; the sum passing `2^62 - 1` at an octet; the
source exhausted inside the continuation octets. -/
def Obligations.ViDecRule : Prop :=
  ∀ (s : State) (n : BitVec 6), s.Ready →
    (n.toNat ≤ 2 ∨ 9 ≤ n.toNat → exec (.viDec n) s = .next { s with fault := some .illegalCommand }) ∧
    (3 ≤ n.toNat → n.toNat ≤ 8 →
      (s.inLen ≤ s.ip → exec (.viDec n) s = .next { s with fault := some .truncatedInput }) ∧
      (∀ b0 rest, s.inBuf.drop s.ip = b0 :: rest →
        (b0.toNat % 2 ^ n.toNat < 2 ^ n.toNat - 1 →
          exec (.viDec n) s = .next { s with
            ip := s.ip + 1, result := BitVec.ofNat 62 (b0.toNat % 2 ^ n.toNat) }) ∧
        (b0.toNat % 2 ^ n.toNat = 2 ^ n.toNat - 1 →
          (∀ init last tail, rest = init ++ last :: tail →
            (∀ c ∈ init, Octet.continues c = true) → Octet.continues last = false →
            2 ^ n.toNat - 1 + payload (init ++ [last]) ≤ 2 ^ 62 - 1 →
            exec (.viDec n) s = .next { s with
              ip := s.ip + 2 + init.length,
              result := BitVec.ofNat 62 (2 ^ n.toNat - 1 + payload (init ++ [last])) }) ∧
          (∀ init c tail, rest = init ++ c :: tail → (∀ d ∈ init, Octet.continues d = true) →
            2 ^ n.toNat - 1 + payload init ≤ 2 ^ 62 - 1 → 2 ^ 62 - 1 < 2 ^ n.toNat - 1 + payload (init ++ [c]) →
            exec (.viDec n) s = .next { s with
              ip := s.ip + 2 + init.length, fault := some .varintOverflow }) ∧
          ((∀ c ∈ rest, Octet.continues c = true) → 2 ^ n.toNat - 1 + payload rest ≤ 2 ^ 62 - 1 →
            exec (.viDec n) s = .next { s with ip := s.inLen, fault := some .truncatedInput }))))

/-- R152, R81: `VI_ENC N, flags, value` emits one octet when the value is below the all-ones prefix; otherwise the
prefix all ones, then the base-128 digits of `value - M`, least significant first, bit 7 set on all but the last, in the
shortest form. The flags are OR-ed into the first octet unchecked; a prefix width outside 3..8 raises `IllegalCommand`. -/
def Obligations.ViEncRule : Prop :=
  ∀ (s : State) (n : BitVec 6) (flags : Octet) (value : Value), s.Ready →
    (n.toNat ≤ 2 ∨ 9 ≤ n.toNat → exec (.viEnc n flags value) s = .next { s with fault := some .illegalCommand }) ∧
    (3 ≤ n.toNat → n.toNat ≤ 8 →
      (value.toNat < 2 ^ n.toNat - 1 →
        exec (.viEnc n flags value) s = .next { s with out := s.out ++ [flags ||| BitVec.ofNat 8 value.toNat] }) ∧
      (2 ^ n.toNat - 1 ≤ value.toNat →
        ∃ init last,
          exec (.viEnc n flags value) s = .next { s with
            out := s.out ++ (flags ||| BitVec.ofNat 8 (2 ^ n.toNat - 1)) :: (init ++ [last]) } ∧
          (∀ c ∈ init, Octet.continues c = true) ∧ Octet.continues last = false ∧
          payload (init ++ [last]) = value.toNat - (2 ^ n.toNat - 1) ∧ (init ≠ [] → last ≠ 0)))

/-- R154: decoding what the encoder emits gives the value back, for every prefix width, every flags octet clear in the
prefix and every value; for `IN = E` and `IP = 0`, and wherever else the octets stand in the source. -/
def Obligations.VarintRoundTrip : Prop :=
  ∀ (n : BitVec 6) (flags : Octet) (value : Value), 3 ≤ n.toNat → n.toNat ≤ 8 →
    flags.toNat % 2 ^ n.toNat = 0 → ∀ s : State, s.Ready →
    ∃ os, exec (.viEnc n flags value) s = .next { s with out := s.out ++ os } ∧
      ∀ (u : State) (rest : List Octet), u.Ready → u.inBuf.drop u.ip = os ++ rest →
        exec (.viDec n) u = .next { u with ip := u.ip + os.length, result := value }

/-- R155: decoding is not injective: (a) the flag bits of the first octet are ignored; (b) zero payload groups may
precede the terminating octet, any number of them. -/
def Obligations.DecodingNotInjective : Prop :=
  ∀ (s u : State) (n : BitVec 6) (b0 b1 last : Octet) (init tail₁ tail₂ : List Octet) (k : Nat),
    s.Ready → u.Ready → 3 ≤ n.toNat → n.toNat ≤ 8 →
    b0.toNat % 2 ^ n.toNat = 2 ^ n.toNat - 1 → b1.toNat % 2 ^ n.toNat = 2 ^ n.toNat - 1 →
    (∀ c ∈ init, Octet.continues c = true) → Octet.continues last = false →
    2 ^ n.toNat - 1 + payload (init ++ [last]) ≤ 2 ^ 62 - 1 →
    s.inBuf.drop s.ip = b0 :: (init ++ last :: tail₁) →
    u.inBuf.drop u.ip = b1 :: (init ++ (last ||| 0x80) :: (List.replicate k 0x80 ++ 0x00 :: tail₂)) →
    ∃ s' u', exec (.viDec n) s = .next s' ∧ exec (.viDec n) u = .next u' ∧
      s'.fault = none ∧ u'.fault = none ∧ s'.result = u'.result

/-- R156: the number of octets `VI_ENC` emits: 1 below the all-ones prefix, otherwise 1 more than the base-128 digits of
`value - M`, of which there is at least one; never more than 10; 10 for the largest value. -/
def Obligations.EncodedLength : Prop :=
  ∀ (s : State) (n : BitVec 6) (flags : Octet) (value : Value), s.Ready → 3 ≤ n.toNat → n.toNat ≤ 8 →
    ∃ os, exec (.viEnc n flags value) s = .next { s with out := s.out ++ os } ∧
      (value.toNat < 2 ^ n.toNat - 1 → os.length = 1) ∧
      (∀ k, 2 ^ n.toNat - 1 ≤ value.toNat → value.toNat - (2 ^ n.toNat - 1) < 128 ^ k →
        (k = 1 ∨ 128 ^ (k - 1) ≤ value.toNat - (2 ^ n.toNat - 1)) → 1 ≤ k → os.length = 1 + k) ∧
      os.length ≤ 10 ∧
      (value.toNat = 2 ^ 62 - 1 → os.length = 10)

/-- R150: the varint unit does not use the cursor, the table, `LP` or `HDONE`: changing them all before the command
changes nothing else after it. -/
def Obligations.VarintIgnoresCursorAndTable : Prop :=
  ∀ (s t : State) (i : Instr) (cb cl rb lp : Nat) (hdone lutValid : Bool) (lut : Lut),
    ((∃ n, i = .viDec n) ∨ ∃ n f v, i = .viEnc n f v) → exec i s = .next t →
    exec i { s with cb := cb, cl := cl, rb := rb, lp := lp, hdone := hdone, lutValid := lutValid, lut := lut } =
      .next { t with cb := cb, cl := cl, rb := rb, lp := lp, hdone := hdone, lutValid := lutValid, lut := lut }

/-- The frame of the varint commands: `VI_DEC` changes `IP`, `RESULT` and `FAULT` only and stores nothing; `VI_ENC`
changes `OUT` (and `FAULT` for an illegal prefix width) only and stores the octets of `varintOctets` from index `|OUT|`
on; every other octet of `OUT`, every octet of `IN` and every entry of `LUT` reads as before. -/
def Obligations.VarintFrame : Prop :=
  ∀ (s t : State) (i : Instr), exec i s = .next t →
    (∀ n, i = .viDec n → t = { s with ip := t.ip, result := t.result, fault := t.fault } ∧
      ∀ a, t.readOut a = s.readOut a) ∧
    (∀ n f v, i = .viEnc n f v → t = { s with out := t.out, fault := t.fault } ∧
      (legalPrefix n = true → t.fault = s.fault) ∧
      ∀ a, (a < s.out.length ∨ s.out.length + (varintOctets (prefixMask n) f v.toNat).length ≤ a) →
        t.readOut a = s.readOut a) ∧
    ((∃ n, i = .viDec n) ∨ (∃ n f v, i = .viEnc n f v) →
      (∀ a, t.readIn a = s.readIn a) ∧ (∀ l a, t.lut.entry? l a = s.lut.entry? l a))

/-! ### Faults and whole-machine rules -/

/-- R181: the codes, and which commands raise which cause. -/
def Obligations.FaultCauses : Prop :=
  (FaultCause.illegalCommand.code = 1 ∧ FaultCause.truncatedInput.code = 2 ∧ FaultCause.varintOverflow.code = 3 ∧
    FaultCause.lutNotBuilt.code = 4 ∧ FaultCause.lutMiss.code = 5 ∧ FaultCause.huffEos.code = 6 ∧
    FaultCause.buildCollision.code = 7) ∧
  (∀ (s t : State) (i : Instr) (c : FaultCause), s.Ready → exec i s = .next t → t.fault = some c →
    (c = .illegalCommand ∧ i.wf = false) ∨
    match i with
    | .bcLoad _ => c = .truncatedInput
    | .bcPeek => False
    | .bcShift _ => False
    | .bcRemain => False
    | .hufBuild => c = .buildCollision
    | .hufStep => c = .lutNotBuilt ∨ c = .lutMiss ∨ c = .huffEos
    | .hufDecode _ => c = .lutNotBuilt ∨ c = .truncatedInput ∨ c = .lutMiss ∨ c = .huffEos
    | .viDec _ => c = .truncatedInput ∨ c = .varintOverflow
    | .viEnc _ _ _ => False)

/-- R184: while `FAULT` is not 0 every command word, legal or not, is refused and LoadInput has no effect: nothing
changes and `FAULT` keeps the first code; the reads still work. `replies` is the model's record of what a read returns
(assumption log 3). -/
def Obligations.StickyFault : Prop :=
  ∀ (s : State) (c : FaultCause), s.fault = some c →
    (∀ w, issueCommand w s = .next s) ∧
    (∀ i, exec i s = .next s) ∧
    (∀ d, perform (.loadInput d) s = .next s) ∧
    perform .readResult s = .next { s with replies := s.replies ++ [.result s.result] } ∧
    perform .readStatus s = .next { s with replies := s.replies ++ [.status s.status] } ∧
    perform .readOut s = .next { s with replies := s.replies ++ [.out s.out] }

/-- R28, R185: `OUT` is append-only: no command shortens or rewrites it, also not one that faults; only a reset empties
it. -/
def Obligations.OutIsAppendOnly : Prop :=
  ∀ s t : State, step s = .next t →
    (s.out <+: t.out ∧ ∀ a < s.out.length, t.readOut a = s.readOut a) ∨
    (t.out = [] ∧ ∃ m rest, s.pending = m :: rest ∧ m.isReset = true)

/-- R27, R60: `IN` is replaced by LoadInput and emptied by a reset; the block never writes it, and `IP` never goes back
during a command. -/
def Obligations.InputIsStable : Prop :=
  (∀ (s t : State) (i : Instr), exec i s = .next t →
    t.inBuf = s.inBuf ∧ (∀ a, t.readIn a = s.readIn a) ∧ s.ip ≤ t.ip) ∧
  (∀ s t : State, step s = .next t → t.inBuf = s.inBuf ∨
    (∃ d rest, s.pending = .loadInput d :: rest ∧ t.inBuf = d) ∨
    (t.inBuf = [] ∧ ∃ m rest, s.pending = m :: rest ∧ m.isReset = true))

/-- R29, R227: `RESULT` is written by `VI_DEC`, `BC_PEEK` and `BC_REMAIN` only, and not by a command that faults or is
refused. -/
def Obligations.ResultWriters : Prop :=
  ∀ (s t : State) (i : Instr), exec i s = .next t →
    t.result = s.result ∨ (t.fault = none ∧ (i = .bcPeek ∨ i = .bcRemain ∨ ∃ n, i = .viDec n))

/-- R211: what each command does right after a hard reset. -/
def Obligations.CommandsAfterHardReset : Prop :=
  ∀ s h : State, h = s.hardReset →
    exec .bcPeek h = .next { h with result := 0xff } ∧
    exec .bcRemain h = .next { h with result := 0 } ∧
    (∀ n : BitVec 6, 1 ≤ n.toNat → n.toNat ≤ 32 → exec (.bcShift n) h = .next h) ∧
    exec (.bcLoad 0) h = .next h ∧
    (∀ len : Value, len ≠ 0 → exec (.bcLoad len) h = .next { h with fault := some .truncatedInput }) ∧
    (∀ n : BitVec 6, 3 ≤ n.toNat → n.toNat ≤ 8 →
      exec (.viDec n) h = .next { h with fault := some .truncatedInput }) ∧
    (∀ (n : BitVec 6) (f : Octet) (v : Value), 3 ≤ n.toNat → n.toNat ≤ 8 →
      ∃ os, os ≠ [] ∧ exec (.viEnc n f v) h = .next { h with out := os }) ∧
    exec .hufStep h = .next { h with fault := some .lutNotBuilt } ∧
    (∀ len : Value, exec (.hufDecode len) h = .next { h with fault := some .lutNotBuilt })
end

