-- ==== Sys2Proof/Laws/Bits.lean ====
section
/-! SUPPORT. Bit strings: their lengths, their values, and that reading and writing one are inverse. -/
namespace Sys2Proof

@[simp] theorem bitsOfNat_length (len v : Nat) : (bitsOfNat len v).length = len := by
  induction len with
  | zero => rfl
  | succ n ih => simp [bitsOfNat, ih]

@[simp] theorem bitsFrom_length (f : Nat → Bool) (k n : Nat) : (bitsFrom f k n).length = n := by
  induction n generalizing k with
  | zero => rfl
  | succ n ih => simp [bitsFrom, ih]

@[simp] theorem HuffCode.pattern_length (c : HuffCode) : c.pattern.length = c.len := bitsOfNat_length _ _

theorem bitsFrom_getElem (f : Nat → Bool) (k n i : Nat) (h : i < (bitsFrom f k n).length) :
    (bitsFrom f k n)[i] = f (k + i) := by
  induction n generalizing k i with
  | zero => simp at h
  | succ n ih =>
    cases i with
    | zero => simp [bitsFrom]
    | succ i => simp [bitsFrom, ih, Nat.add_assoc, Nat.add_comm 1 i]

theorem bitsFrom_congr {f g : Nat → Bool} (h : ∀ k, f k = g k) (k n : Nat) : bitsFrom f k n = bitsFrom g k n := by
  rw [funext h]

theorem natOfBits_foldl (b : List Bool) (a : Nat) :
    b.foldl (fun a x => 2 * a + x.toNat) a = a * 2 ^ b.length + natOfBits b := by
  induction b generalizing a with
  | nil => simp [natOfBits]
  | cons x b ih =>
    simp only [natOfBits, List.foldl_cons, List.length_cons]
    rw [ih, ih (2 * 0 + x.toNat)]
    ring

@[simp] theorem natOfBits_nil : natOfBits [] = 0 := rfl

theorem natOfBits_cons (x : Bool) (b : List Bool) : natOfBits (x :: b) = x.toNat * 2 ^ b.length + natOfBits b := by
  rw [natOfBits, List.foldl_cons, natOfBits_foldl]; simp

theorem natOfBits_append (b c : List Bool) : natOfBits (b ++ c) = natOfBits b * 2 ^ c.length + natOfBits c := by
  rw [natOfBits, List.foldl_append, natOfBits_foldl]; rfl

theorem natOfBits_lt (b : List Bool) : natOfBits b < 2 ^ b.length := by
  induction b with
  | nil => simp
  | cons x b ih =>
    rw [natOfBits_cons, List.length_cons, pow_succ]
    have : x.toNat ≤ 1 := Bool.toNat_le x
    nlinarith

/-- Bit `j` of the number is the bit of the string `j` places from its end. -/
theorem natOfBits_testBit (b : List Bool) (j : Nat) (h : j < b.length) :
    (natOfBits b).testBit j = b[b.length - 1 - j] := by
  induction b with
  | nil => simp at h
  | cons x b ih =>
    rw [natOfBits_cons, Nat.mul_comm, Nat.testBit_two_pow_mul_add _ (natOfBits_lt b)]
    by_cases hj : j < b.length
    · have hi : b.length - j = (b.length - 1 - j) + 1 := by omega
      simp [hj, ih hj, hi]
    · have : j = b.length := by simp at h; omega
      subst this; cases x <;> simp

/-- A string written out and read back. -/
theorem natOfBits_bitsOfNat (len v : Nat) : natOfBits (bitsOfNat len v) = v % 2 ^ len := by
  induction len with
  | zero => simp [bitsOfNat, Nat.mod_one]
  | succ n ih =>
    rw [bitsOfNat, natOfBits_cons, ih, bitsOfNat_length, Nat.mod_pow_succ, Nat.testBit_eq_decide_div_mod_eq,
      Nat.mul_comm, Nat.add_comm]
    congr 2
    rcases Nat.mod_two_eq_zero_or_one (v / 2 ^ n) with h | h <;> simp [h]

end Sys2Proof
end

