-- ==== Sys2Proof/Laws/Decode.lean ====
section
/-! SUPPORT. The fields of a word that is put together from fields (R70). -/
namespace Sys2Proof
variable (op : BitVec 4) (n : BitVec 6) (f : Octet) (v : Value)

/-- Bit `i` of a word, from the field it lies in. -/
theorem wordOf_getLsbD (i : Nat) : (wordOf op n f v).getLsbD i =
    if i < 62 then v.getLsbD i
    else if i < 70 then f.getLsbD (i - 62)
    else if i < 76 then n.getLsbD (i - 70)
    else op.getLsbD (i - 76) := by
  simp only [wordOf]
  rw [BitVec.getLsbD_append, BitVec.getLsbD_append, BitVec.getLsbD_append, Nat.sub_sub, Nat.sub_sub]
  split_ifs <;> first | rfl | omega

@[simp] theorem valueOf_wordOf : valueOf (wordOf op n f v) = v := by
  refine BitVec.eq_of_getLsbD_eq fun i hi => ?_
  simp [valueOf, wordOf_getLsbD, hi]

@[simp] theorem flagsOf_wordOf : flagsOf (wordOf op n f v) = f := by
  refine BitVec.eq_of_getLsbD_eq fun i hi => ?_
  simp [flagsOf, wordOf_getLsbD, hi, show 62 + i < 70 by omega]

@[simp] theorem countOf_wordOf : countOf (wordOf op n f v) = n := by
  refine BitVec.eq_of_getLsbD_eq fun i hi => ?_
  simp [countOf, wordOf_getLsbD, hi, show 70 + i < 76 by omega, show ¬ 70 + i < 62 by omega]

@[simp] theorem opOf_wordOf : opOf (wordOf op n f v) = op := by
  refine BitVec.eq_of_getLsbD_eq fun i hi => ?_
  simp [opOf, wordOf_getLsbD, hi, show ¬ 76 + i < 62 by omega, show ¬ 76 + i < 70 by omega]

/-- A word is put together from its own fields. -/
theorem wordOf_fields (w : CmdWord) : wordOf (opOf w) (countOf w) (flagsOf w) (valueOf w) = w := by
  refine BitVec.eq_of_getLsbD_eq fun i hi => ?_
  rw [wordOf_getLsbD]
  simp only [valueOf, flagsOf, countOf, opOf, BitVec.getLsbD_extractLsb']
  by_cases h62 : i < 62
  · simp [h62]
  by_cases h70 : i < 70
  · simp [h62, h70, show i - 62 < 8 by omega, show 62 + (i - 62) = i by omega]
  by_cases h76 : i < 76
  · simp [h62, h70, h76, show i - 70 < 6 by omega, show 70 + (i - 70) = i by omega]
  · simp [h62, h70, h76, show i - 76 < 4 by omega, show 76 + (i - 76) = i by omega]

/-- The one case of `acceptIf` that answers an instruction. -/
theorem acceptIf_ok {u r : Bool} {i j : Instr} : acceptIf u r i = .ok j ↔ u = true ∧ r = true ∧ i = j := by
  cases u <;> cases r <;> simp [acceptIf]

end Sys2Proof
end

