-- ==== Sys2Proof/Laws/State.lean ====
section
/-! SUPPORT. One lemma per field per named update of the state, so that no proof unfolds an update. -/
namespace Sys2Proof.Machine
variable (s : State)

/-! ### `advance` -/

@[simp] theorem State.advance_inBuf (k : Nat) : (s.advance k).inBuf = s.inBuf := rfl
@[simp] theorem State.advance_ip (k : Nat) : (s.advance k).ip = s.ip + k := rfl
@[simp] theorem State.advance_cb (k : Nat) : (s.advance k).cb = s.cb := rfl
@[simp] theorem State.advance_cl (k : Nat) : (s.advance k).cl = s.cl := rfl
@[simp] theorem State.advance_rb (k : Nat) : (s.advance k).rb = s.rb := rfl
@[simp] theorem State.advance_lp (k : Nat) : (s.advance k).lp = s.lp := rfl
@[simp] theorem State.advance_hdone (k : Nat) : (s.advance k).hdone = s.hdone := rfl
@[simp] theorem State.advance_lut (k : Nat) : (s.advance k).lut = s.lut := rfl
@[simp] theorem State.advance_lutValid (k : Nat) : (s.advance k).lutValid = s.lutValid := rfl
@[simp] theorem State.advance_out (k : Nat) : (s.advance k).out = s.out := rfl
@[simp] theorem State.advance_result (k : Nat) : (s.advance k).result = s.result := rfl
@[simp] theorem State.advance_fault (k : Nat) : (s.advance k).fault = s.fault := rfl
@[simp] theorem State.advance_pending (k : Nat) : (s.advance k).pending = s.pending := rfl
@[simp] theorem State.advance_replies (k : Nat) : (s.advance k).replies = s.replies := rfl

/-! ### `emit` -/

@[simp] theorem State.emit_inBuf (os : List Octet) : (s.emit os).inBuf = s.inBuf := rfl
@[simp] theorem State.emit_ip (os : List Octet) : (s.emit os).ip = s.ip := rfl
@[simp] theorem State.emit_cb (os : List Octet) : (s.emit os).cb = s.cb := rfl
@[simp] theorem State.emit_cl (os : List Octet) : (s.emit os).cl = s.cl := rfl
@[simp] theorem State.emit_rb (os : List Octet) : (s.emit os).rb = s.rb := rfl
@[simp] theorem State.emit_lp (os : List Octet) : (s.emit os).lp = s.lp := rfl
@[simp] theorem State.emit_hdone (os : List Octet) : (s.emit os).hdone = s.hdone := rfl
@[simp] theorem State.emit_lut (os : List Octet) : (s.emit os).lut = s.lut := rfl
@[simp] theorem State.emit_lutValid (os : List Octet) : (s.emit os).lutValid = s.lutValid := rfl
@[simp] theorem State.emit_out (os : List Octet) : (s.emit os).out = s.out ++ os := rfl
@[simp] theorem State.emit_result (os : List Octet) : (s.emit os).result = s.result := rfl
@[simp] theorem State.emit_fault (os : List Octet) : (s.emit os).fault = s.fault := rfl
@[simp] theorem State.emit_pending (os : List Octet) : (s.emit os).pending = s.pending := rfl
@[simp] theorem State.emit_replies (os : List Octet) : (s.emit os).replies = s.replies := rfl

/-! ### `setResult` -/

@[simp] theorem State.setResult_inBuf (v : Nat) : (s.setResult v).inBuf = s.inBuf := rfl
@[simp] theorem State.setResult_ip (v : Nat) : (s.setResult v).ip = s.ip := rfl
@[simp] theorem State.setResult_cb (v : Nat) : (s.setResult v).cb = s.cb := rfl
@[simp] theorem State.setResult_cl (v : Nat) : (s.setResult v).cl = s.cl := rfl
@[simp] theorem State.setResult_rb (v : Nat) : (s.setResult v).rb = s.rb := rfl
@[simp] theorem State.setResult_lp (v : Nat) : (s.setResult v).lp = s.lp := rfl
@[simp] theorem State.setResult_hdone (v : Nat) : (s.setResult v).hdone = s.hdone := rfl
@[simp] theorem State.setResult_lut (v : Nat) : (s.setResult v).lut = s.lut := rfl
@[simp] theorem State.setResult_lutValid (v : Nat) : (s.setResult v).lutValid = s.lutValid := rfl
@[simp] theorem State.setResult_out (v : Nat) : (s.setResult v).out = s.out := rfl
@[simp] theorem State.setResult_result (v : Nat) : (s.setResult v).result = zext62 v := rfl
@[simp] theorem State.setResult_fault (v : Nat) : (s.setResult v).fault = s.fault := rfl
@[simp] theorem State.setResult_pending (v : Nat) : (s.setResult v).pending = s.pending := rfl
@[simp] theorem State.setResult_replies (v : Nat) : (s.setResult v).replies = s.replies := rfl

/-! ### `shift` -/

@[simp] theorem State.shift_inBuf (n : Nat) : (s.shift n).inBuf = s.inBuf := rfl
@[simp] theorem State.shift_ip (n : Nat) : (s.shift n).ip = s.ip := rfl
@[simp] theorem State.shift_cb (n : Nat) : (s.shift n).cb = s.cb := rfl
@[simp] theorem State.shift_cl (n : Nat) : (s.shift n).cl = s.cl := rfl
@[simp] theorem State.shift_rb (n : Nat) : (s.shift n).rb = s.rb - n := rfl
@[simp] theorem State.shift_lp (n : Nat) : (s.shift n).lp = s.lp := rfl
@[simp] theorem State.shift_hdone (n : Nat) : (s.shift n).hdone = s.hdone := rfl
@[simp] theorem State.shift_lut (n : Nat) : (s.shift n).lut = s.lut := rfl
@[simp] theorem State.shift_lutValid (n : Nat) : (s.shift n).lutValid = s.lutValid := rfl
@[simp] theorem State.shift_out (n : Nat) : (s.shift n).out = s.out := rfl
@[simp] theorem State.shift_result (n : Nat) : (s.shift n).result = s.result := rfl
@[simp] theorem State.shift_fault (n : Nat) : (s.shift n).fault = s.fault := rfl
@[simp] theorem State.shift_pending (n : Nat) : (s.shift n).pending = s.pending := rfl
@[simp] theorem State.shift_replies (n : Nat) : (s.shift n).replies = s.replies := rfl

/-! ### `setLp` -/

@[simp] theorem State.setLp_inBuf (l : Nat) : (s.setLp l).inBuf = s.inBuf := rfl
@[simp] theorem State.setLp_ip (l : Nat) : (s.setLp l).ip = s.ip := rfl
@[simp] theorem State.setLp_cb (l : Nat) : (s.setLp l).cb = s.cb := rfl
@[simp] theorem State.setLp_cl (l : Nat) : (s.setLp l).cl = s.cl := rfl
@[simp] theorem State.setLp_rb (l : Nat) : (s.setLp l).rb = s.rb := rfl
@[simp] theorem State.setLp_lp (l : Nat) : (s.setLp l).lp = l := rfl
@[simp] theorem State.setLp_hdone (l : Nat) : (s.setLp l).hdone = s.hdone := rfl
@[simp] theorem State.setLp_lut (l : Nat) : (s.setLp l).lut = s.lut := rfl
@[simp] theorem State.setLp_lutValid (l : Nat) : (s.setLp l).lutValid = s.lutValid := rfl
@[simp] theorem State.setLp_out (l : Nat) : (s.setLp l).out = s.out := rfl
@[simp] theorem State.setLp_result (l : Nat) : (s.setLp l).result = s.result := rfl
@[simp] theorem State.setLp_fault (l : Nat) : (s.setLp l).fault = s.fault := rfl
@[simp] theorem State.setLp_pending (l : Nat) : (s.setLp l).pending = s.pending := rfl
@[simp] theorem State.setLp_replies (l : Nat) : (s.setLp l).replies = s.replies := rfl

/-! ### `setLut` -/

@[simp] theorem State.setLut_inBuf (t : Lut) : (s.setLut t).inBuf = s.inBuf := rfl
@[simp] theorem State.setLut_ip (t : Lut) : (s.setLut t).ip = s.ip := rfl
@[simp] theorem State.setLut_cb (t : Lut) : (s.setLut t).cb = s.cb := rfl
@[simp] theorem State.setLut_cl (t : Lut) : (s.setLut t).cl = s.cl := rfl
@[simp] theorem State.setLut_rb (t : Lut) : (s.setLut t).rb = s.rb := rfl
@[simp] theorem State.setLut_lp (t : Lut) : (s.setLut t).lp = s.lp := rfl
@[simp] theorem State.setLut_hdone (t : Lut) : (s.setLut t).hdone = s.hdone := rfl
@[simp] theorem State.setLut_lut (t : Lut) : (s.setLut t).lut = t := rfl
@[simp] theorem State.setLut_lutValid (t : Lut) : (s.setLut t).lutValid = s.lutValid := rfl
@[simp] theorem State.setLut_out (t : Lut) : (s.setLut t).out = s.out := rfl
@[simp] theorem State.setLut_result (t : Lut) : (s.setLut t).result = s.result := rfl
@[simp] theorem State.setLut_fault (t : Lut) : (s.setLut t).fault = s.fault := rfl
@[simp] theorem State.setLut_pending (t : Lut) : (s.setLut t).pending = s.pending := rfl
@[simp] theorem State.setLut_replies (t : Lut) : (s.setLut t).replies = s.replies := rfl

/-! ### `loadCursor` -/

@[simp] theorem State.loadCursor_inBuf (len : Nat) : (s.loadCursor len).inBuf = s.inBuf := rfl
@[simp] theorem State.loadCursor_ip (len : Nat) : (s.loadCursor len).ip = s.ip + len := rfl
@[simp] theorem State.loadCursor_cb (len : Nat) : (s.loadCursor len).cb = s.ip := rfl
@[simp] theorem State.loadCursor_cl (len : Nat) : (s.loadCursor len).cl = len := rfl
@[simp] theorem State.loadCursor_rb (len : Nat) : (s.loadCursor len).rb = 8 * len := rfl
@[simp] theorem State.loadCursor_lp (len : Nat) : (s.loadCursor len).lp = 0 := rfl
@[simp] theorem State.loadCursor_hdone (len : Nat) : (s.loadCursor len).hdone = false := rfl
@[simp] theorem State.loadCursor_lut (len : Nat) : (s.loadCursor len).lut = s.lut := rfl
@[simp] theorem State.loadCursor_lutValid (len : Nat) : (s.loadCursor len).lutValid = s.lutValid := rfl
@[simp] theorem State.loadCursor_out (len : Nat) : (s.loadCursor len).out = s.out := rfl
@[simp] theorem State.loadCursor_result (len : Nat) : (s.loadCursor len).result = s.result := rfl
@[simp] theorem State.loadCursor_fault (len : Nat) : (s.loadCursor len).fault = s.fault := rfl
@[simp] theorem State.loadCursor_pending (len : Nat) : (s.loadCursor len).pending = s.pending := rfl
@[simp] theorem State.loadCursor_replies (len : Nat) : (s.loadCursor len).replies = s.replies := rfl

/-! ### `raise` -/

@[simp] theorem State.raise_inBuf (c : FaultCause) : (s.raise c).inBuf = s.inBuf := rfl
@[simp] theorem State.raise_ip (c : FaultCause) : (s.raise c).ip = s.ip := rfl
@[simp] theorem State.raise_cb (c : FaultCause) : (s.raise c).cb = s.cb := rfl
@[simp] theorem State.raise_cl (c : FaultCause) : (s.raise c).cl = s.cl := rfl
@[simp] theorem State.raise_rb (c : FaultCause) : (s.raise c).rb = s.rb := rfl
@[simp] theorem State.raise_lp (c : FaultCause) : (s.raise c).lp = s.lp := rfl
@[simp] theorem State.raise_hdone (c : FaultCause) : (s.raise c).hdone = s.hdone := rfl
@[simp] theorem State.raise_lut (c : FaultCause) : (s.raise c).lut = s.lut := rfl
@[simp] theorem State.raise_lutValid (c : FaultCause) : (s.raise c).lutValid = s.lutValid := rfl
@[simp] theorem State.raise_out (c : FaultCause) : (s.raise c).out = s.out := rfl
@[simp] theorem State.raise_result (c : FaultCause) : (s.raise c).result = s.result := rfl
@[simp] theorem State.raise_fault (c : FaultCause) : (s.raise c).fault = some c := rfl
@[simp] theorem State.raise_pending (c : FaultCause) : (s.raise c).pending = s.pending := rfl
@[simp] theorem State.raise_replies (c : FaultCause) : (s.raise c).replies = s.replies := rfl

/-! ### `stopDecode` -/

@[simp] theorem State.stopDecode_inBuf : s.stopDecode.inBuf = s.inBuf := rfl
@[simp] theorem State.stopDecode_ip : s.stopDecode.ip = s.ip := rfl
@[simp] theorem State.stopDecode_cb : s.stopDecode.cb = s.cb := rfl
@[simp] theorem State.stopDecode_cl : s.stopDecode.cl = s.cl := rfl
@[simp] theorem State.stopDecode_rb : s.stopDecode.rb = s.rb := rfl
@[simp] theorem State.stopDecode_lp : s.stopDecode.lp = 0 := rfl
@[simp] theorem State.stopDecode_hdone : s.stopDecode.hdone = true := rfl
@[simp] theorem State.stopDecode_lut : s.stopDecode.lut = s.lut := rfl
@[simp] theorem State.stopDecode_lutValid : s.stopDecode.lutValid = s.lutValid := rfl
@[simp] theorem State.stopDecode_out : s.stopDecode.out = s.out := rfl
@[simp] theorem State.stopDecode_result : s.stopDecode.result = s.result := rfl
@[simp] theorem State.stopDecode_fault : s.stopDecode.fault = s.fault := rfl
@[simp] theorem State.stopDecode_pending : s.stopDecode.pending = s.pending := rfl
@[simp] theorem State.stopDecode_replies : s.stopDecode.replies = s.replies := rfl

/-! ### `startDecode` -/

@[simp] theorem State.startDecode_inBuf : s.startDecode.inBuf = s.inBuf := rfl
@[simp] theorem State.startDecode_ip : s.startDecode.ip = s.ip := rfl
@[simp] theorem State.startDecode_cb : s.startDecode.cb = s.cb := rfl
@[simp] theorem State.startDecode_cl : s.startDecode.cl = s.cl := rfl
@[simp] theorem State.startDecode_rb : s.startDecode.rb = s.rb := rfl
@[simp] theorem State.startDecode_lp : s.startDecode.lp = 0 := rfl
@[simp] theorem State.startDecode_hdone : s.startDecode.hdone = false := rfl
@[simp] theorem State.startDecode_lut : s.startDecode.lut = s.lut := rfl
@[simp] theorem State.startDecode_lutValid : s.startDecode.lutValid = s.lutValid := rfl
@[simp] theorem State.startDecode_out : s.startDecode.out = s.out := rfl
@[simp] theorem State.startDecode_result : s.startDecode.result = s.result := rfl
@[simp] theorem State.startDecode_fault : s.startDecode.fault = s.fault := rfl
@[simp] theorem State.startDecode_pending : s.startDecode.pending = s.pending := rfl
@[simp] theorem State.startDecode_replies : s.startDecode.replies = s.replies := rfl

/-! ### `markBuilt` -/

@[simp] theorem State.markBuilt_inBuf : s.markBuilt.inBuf = s.inBuf := rfl
@[simp] theorem State.markBuilt_ip : s.markBuilt.ip = s.ip := rfl
@[simp] theorem State.markBuilt_cb : s.markBuilt.cb = s.cb := rfl
@[simp] theorem State.markBuilt_cl : s.markBuilt.cl = s.cl := rfl
@[simp] theorem State.markBuilt_rb : s.markBuilt.rb = s.rb := rfl
@[simp] theorem State.markBuilt_lp : s.markBuilt.lp = s.lp := rfl
@[simp] theorem State.markBuilt_hdone : s.markBuilt.hdone = s.hdone := rfl
@[simp] theorem State.markBuilt_lut : s.markBuilt.lut = s.lut := rfl
@[simp] theorem State.markBuilt_lutValid : s.markBuilt.lutValid = true := rfl
@[simp] theorem State.markBuilt_out : s.markBuilt.out = s.out := rfl
@[simp] theorem State.markBuilt_result : s.markBuilt.result = s.result := rfl
@[simp] theorem State.markBuilt_fault : s.markBuilt.fault = s.fault := rfl
@[simp] theorem State.markBuilt_pending : s.markBuilt.pending = s.pending := rfl
@[simp] theorem State.markBuilt_replies : s.markBuilt.replies = s.replies := rfl

/-! ### `hardReset` -/

@[simp] theorem State.hardReset_inBuf : s.hardReset.inBuf = [] := rfl
@[simp] theorem State.hardReset_ip : s.hardReset.ip = 0 := rfl
@[simp] theorem State.hardReset_cb : s.hardReset.cb = 0 := rfl
@[simp] theorem State.hardReset_cl : s.hardReset.cl = 0 := rfl
@[simp] theorem State.hardReset_rb : s.hardReset.rb = 0 := rfl
@[simp] theorem State.hardReset_lp : s.hardReset.lp = 0 := rfl
@[simp] theorem State.hardReset_hdone : s.hardReset.hdone = false := rfl
@[simp] theorem State.hardReset_lut : s.hardReset.lut = [Layer.fresh] := rfl
@[simp] theorem State.hardReset_lutValid : s.hardReset.lutValid = false := rfl
@[simp] theorem State.hardReset_out : s.hardReset.out = [] := rfl
@[simp] theorem State.hardReset_result : s.hardReset.result = 0 := rfl
@[simp] theorem State.hardReset_fault : s.hardReset.fault = none := rfl
@[simp] theorem State.hardReset_pending : s.hardReset.pending = s.pending := rfl
@[simp] theorem State.hardReset_replies : s.hardReset.replies = s.replies := rfl

/-! ### `softReset` -/

@[simp] theorem State.softReset_inBuf : s.softReset.inBuf = [] := rfl
@[simp] theorem State.softReset_ip : s.softReset.ip = 0 := rfl
@[simp] theorem State.softReset_cb : s.softReset.cb = 0 := rfl
@[simp] theorem State.softReset_cl : s.softReset.cl = 0 := rfl
@[simp] theorem State.softReset_rb : s.softReset.rb = 0 := rfl
@[simp] theorem State.softReset_lp : s.softReset.lp = 0 := rfl
@[simp] theorem State.softReset_hdone : s.softReset.hdone = false := rfl
@[simp] theorem State.softReset_lut : s.softReset.lut = s.lut := rfl
@[simp] theorem State.softReset_lutValid : s.softReset.lutValid = s.lutValid := rfl
@[simp] theorem State.softReset_out : s.softReset.out = [] := rfl
@[simp] theorem State.softReset_result : s.softReset.result = 0 := rfl
@[simp] theorem State.softReset_fault : s.softReset.fault = none := rfl
@[simp] theorem State.softReset_pending : s.softReset.pending = s.pending := rfl
@[simp] theorem State.softReset_replies : s.softReset.replies = s.replies := rfl

/-! ### `loadInput` -/

@[simp] theorem State.loadInput_inBuf (d : List Octet) : (s.loadInput d).inBuf = d := rfl
@[simp] theorem State.loadInput_ip (d : List Octet) : (s.loadInput d).ip = 0 := rfl
@[simp] theorem State.loadInput_cb (d : List Octet) : (s.loadInput d).cb = 0 := rfl
@[simp] theorem State.loadInput_cl (d : List Octet) : (s.loadInput d).cl = 0 := rfl
@[simp] theorem State.loadInput_rb (d : List Octet) : (s.loadInput d).rb = 0 := rfl
@[simp] theorem State.loadInput_lp (d : List Octet) : (s.loadInput d).lp = 0 := rfl
@[simp] theorem State.loadInput_hdone (d : List Octet) : (s.loadInput d).hdone = false := rfl
@[simp] theorem State.loadInput_lut (d : List Octet) : (s.loadInput d).lut = s.lut := rfl
@[simp] theorem State.loadInput_lutValid (d : List Octet) : (s.loadInput d).lutValid = s.lutValid := rfl
@[simp] theorem State.loadInput_out (d : List Octet) : (s.loadInput d).out = s.out := rfl
@[simp] theorem State.loadInput_result (d : List Octet) : (s.loadInput d).result = s.result := rfl
@[simp] theorem State.loadInput_fault (d : List Octet) : (s.loadInput d).fault = s.fault := rfl
@[simp] theorem State.loadInput_pending (d : List Octet) : (s.loadInput d).pending = s.pending := rfl
@[simp] theorem State.loadInput_replies (d : List Octet) : (s.loadInput d).replies = s.replies := rfl

/-! ### `reply` -/

@[simp] theorem State.reply_inBuf (r : Reply) : (s.reply r).inBuf = s.inBuf := rfl
@[simp] theorem State.reply_ip (r : Reply) : (s.reply r).ip = s.ip := rfl
@[simp] theorem State.reply_cb (r : Reply) : (s.reply r).cb = s.cb := rfl
@[simp] theorem State.reply_cl (r : Reply) : (s.reply r).cl = s.cl := rfl
@[simp] theorem State.reply_rb (r : Reply) : (s.reply r).rb = s.rb := rfl
@[simp] theorem State.reply_lp (r : Reply) : (s.reply r).lp = s.lp := rfl
@[simp] theorem State.reply_hdone (r : Reply) : (s.reply r).hdone = s.hdone := rfl
@[simp] theorem State.reply_lut (r : Reply) : (s.reply r).lut = s.lut := rfl
@[simp] theorem State.reply_lutValid (r : Reply) : (s.reply r).lutValid = s.lutValid := rfl
@[simp] theorem State.reply_out (r : Reply) : (s.reply r).out = s.out := rfl
@[simp] theorem State.reply_result (r : Reply) : (s.reply r).result = s.result := rfl
@[simp] theorem State.reply_fault (r : Reply) : (s.reply r).fault = s.fault := rfl
@[simp] theorem State.reply_pending (r : Reply) : (s.reply r).pending = s.pending := rfl
@[simp] theorem State.reply_replies (r : Reply) : (s.reply r).replies = s.replies ++ [r] := rfl

/-! ### `withPending` -/

@[simp] theorem State.withPending_inBuf (ms : List HostMove) : (s.withPending ms).inBuf = s.inBuf := rfl
@[simp] theorem State.withPending_ip (ms : List HostMove) : (s.withPending ms).ip = s.ip := rfl
@[simp] theorem State.withPending_cb (ms : List HostMove) : (s.withPending ms).cb = s.cb := rfl
@[simp] theorem State.withPending_cl (ms : List HostMove) : (s.withPending ms).cl = s.cl := rfl
@[simp] theorem State.withPending_rb (ms : List HostMove) : (s.withPending ms).rb = s.rb := rfl
@[simp] theorem State.withPending_lp (ms : List HostMove) : (s.withPending ms).lp = s.lp := rfl
@[simp] theorem State.withPending_hdone (ms : List HostMove) : (s.withPending ms).hdone = s.hdone := rfl
@[simp] theorem State.withPending_lut (ms : List HostMove) : (s.withPending ms).lut = s.lut := rfl
@[simp] theorem State.withPending_lutValid (ms : List HostMove) : (s.withPending ms).lutValid = s.lutValid := rfl
@[simp] theorem State.withPending_out (ms : List HostMove) : (s.withPending ms).out = s.out := rfl
@[simp] theorem State.withPending_result (ms : List HostMove) : (s.withPending ms).result = s.result := rfl
@[simp] theorem State.withPending_fault (ms : List HostMove) : (s.withPending ms).fault = s.fault := rfl
@[simp] theorem State.withPending_pending (ms : List HostMove) : (s.withPending ms).pending = ms := rfl
@[simp] theorem State.withPending_replies (ms : List HostMove) : (s.withPending ms).replies = s.replies := rfl

end Sys2Proof.Machine
end

