-- ==== Sys2Proof/Laws/Ops.lean ====
section
/-! SUPPORT. What the shared operations do, each said once: the source, the stream and window, and the order of a
command's checks. -/
namespace Sys2Proof.Machine

/-! ### The source -/

/-- The source is exhausted exactly when `IP >= IN_LEN` (R27). -/
theorem State.source_eq_nil_iff (s : State) : s.source = [] ↔ s.inLen ≤ s.ip := by
  simp [State.source, State.inLen]

/-- The first octet of the source is `IN[IP]`, and the rest is the source after it (R151). -/
theorem State.source_eq_cons {s : State} {o : Octet} {rest : List Octet} (h : s.source = o :: rest) :
    s.readIn s.ip = some o ∧ (s.advance 1).source = rest ∧ s.ip < s.inLen := by
  have hlt : s.ip < s.inBuf.length := by
    by_contra hc
    rw [State.source, List.drop_eq_nil_of_le (by omega)] at h
    cases h
  rw [State.source, List.drop_eq_getElem_cons hlt] at h
  injection h with h1 h2
  exact ⟨by rw [State.readIn, List.getElem?_eq_getElem hlt, h1], h2, hlt⟩

theorem State.sourceHas_iff (s : State) (len : Nat) : s.sourceHas len = true ↔ s.ip + len ≤ s.inLen := by
  simp [State.sourceHas]

@[simp] theorem State.readIn_of_inBuf {s t : State} (h : t.inBuf = s.inBuf) (a : Nat) : t.readIn a = s.readIn a := by
  simp [State.readIn, h]

/-! ### The cursor -/

theorem State.cursorLegal_iff (s : State) :
    s.cursorLegal = true ↔ s.cb + s.cl ≤ s.inLen ∧ s.rb ≤ 8 * s.cl := by
  simp [State.cursorLegal]

/-- The stream is a function of `IN`, `CB` and `CL` (R23). -/
theorem State.streamBit_congr {s t : State} (h₁ : t.inBuf = s.inBuf) (h₂ : t.cb = s.cb) (h₃ : t.cl = s.cl) (k : Nat) :
    t.streamBit k = s.streamBit k := by
  simp [State.streamBit, State.readIn, h₁, h₂, h₃]

/-- Every bit after the real ones is 1 (R23). -/
theorem State.streamBit_padding (s : State) {k : Nat} (h : 8 * s.cl ≤ k) : s.streamBit k = true := by
  simp [State.streamBit, Nat.not_lt.mpr h]

/-- A real bit is a bit of an octet of `IN` that exists (R23, R51). -/
theorem State.streamBit_real (s : State) {k : Nat} (hc : s.cb + s.cl ≤ s.inLen) (h : k < 8 * s.cl) :
    ∃ o, s.readIn (s.cb + k / 8) = some o ∧ s.streamBit k = o.getLsbD (7 - k % 8) := by
  have hk : s.cb + k / 8 < s.inBuf.length := by
    rw [State.inLen] at hc
    omega
  refine ⟨s.inBuf[s.cb + k / 8], by simp [State.readIn, List.getElem?_eq_getElem hk], ?_⟩
  simp [State.streamBit, h, State.readIn, List.getElem?_eq_getElem hk]

/-! ### The checks of a command -/

@[simp] theorem command_faulted {s : State} {c : FaultCause} (h : s.fault = some c) (legal : Bool)
    (body : State → Result) : command legal body s = .next s := by
  simp [command, h]

@[simp] theorem command_legal {s : State} (h : s.fault = none) (body : State → Result) :
    command true body s = body s := by
  simp [command, h]

@[simp] theorem command_illegal {s : State} (h : s.fault = none) (body : State → Result) :
    command false body s = .next (s.raise .illegalCommand) := by
  simp [command, h]

/-- Everything a command can do: it is refused, it is illegal, or its own text runs (R180, R183). -/
theorem command_cases (legal : Bool) (body : State → Result) (s : State) :
    ((∃ c, s.fault = some c) ∧ command legal body s = .next s) ∨
    (s.fault = none ∧ legal = false ∧ command legal body s = .next (s.raise .illegalCommand)) ∨
    (s.fault = none ∧ legal = true ∧ command legal body s = body s) := by
  cases hf : s.fault with
  | some c => exact .inl ⟨⟨c, rfl⟩, command_faulted hf _ _⟩
  | none =>
    cases legal with
    | false => exact .inr (.inl ⟨rfl, rfl, command_illegal hf _⟩)
    | true => exact .inr (.inr ⟨rfl, rfl, command_legal hf _⟩)

end Sys2Proof.Machine
end

