-- ==== Sys2Proof/Laws/Table.lean ====
section
/-! SUPPORT. The lookup table: `fillRun` is the loop of R121, and every operation of the build keeps the form of the
table (`Lut.wf`). -/
namespace Sys2Proof.Machine

/-! ### The run is the loop -/

/-- The `for k` loop of `place` (R121), entry by entry: require the entry `Empty`, write it, go on to the next. -/
def fillLoop (e : Entry) : (n i : Nat) → Layer → Layer × Bool
  | 0, _, l => (l, true)
  | n + 1, i, l => if l[i]? = some .empty then fillLoop e n (i + 1) (l.set i e) else (l, false)

/-- The loop on a layer whose first entry it does not reach. -/
theorem fillLoop_cons (e x : Entry) (n i : Nat) (l : Layer) :
    fillLoop e n (i + 1) (x :: l) = (x :: (fillLoop e n i l).1, (fillLoop e n i l).2) := by
  induction n generalizing i l with
  | zero => rfl
  | succ n ih =>
    simp only [fillLoop, List.getElem?_cons_succ, List.set_cons_succ]
    split
    · rw [ih]
    · rfl

/-- Running along the layer once is the loop (R121). -/
theorem fillRun_eq_fillLoop (e : Entry) (skip n : Nat) (l : Layer) : fillRun e skip n l = fillLoop e n skip l := by
  induction l generalizing skip n with
  | nil => cases skip <;> cases n <;> simp [fillRun, fillLoop]
  | cons x l ih =>
    cases skip with
    | succ k => simp only [fillRun, ih, fillLoop_cons]
    | zero =>
      cases n with
      | zero => rfl
      | succ n => cases x <;> simp [fillRun, fillLoop, ih, fillLoop_cons]

@[simp] theorem fillRun_length (e : Entry) (skip n : Nat) (l : Layer) : (fillRun e skip n l).1.length = l.length := by
  induction l generalizing skip n with
  | nil => cases skip <;> cases n <;> simp [fillRun]
  | cons x l ih =>
    cases skip with
    | succ k => simp [fillRun, ih]
    | zero => cases n with
      | zero => rfl
      | succ n => cases x <;> simp [fillRun, ih]

/-- An entry of the layer after a run is one of before or the one written. -/
theorem fillRun_mem {e x : Entry} {skip n : Nat} {l : Layer} (h : x ∈ (fillRun e skip n l).1) : x ∈ l ∨ x = e := by
  induction l generalizing skip n with
  | nil => cases skip <;> cases n <;> simp [fillRun] at h
  | cons y l ih =>
    cases skip with
    | succ k =>
      simp only [fillRun, List.mem_cons] at h
      rcases h with rfl | h
      · exact .inl (by simp)
      · exact (ih h).imp_left (by simp +contextual)
    | zero =>
      cases n with
      | zero => exact .inl h
      | succ n =>
        cases y with
        | leaf _ _ => exact .inl h
        | branch _ => exact .inl h
        | empty =>
          simp only [fillRun, List.mem_cons] at h
          rcases h with rfl | h
          · exact .inr rfl
          · exact (ih h).imp_left (by simp +contextual)

/-! ### The form of the table -/

/-- An entry names an allocated layer other than the root, if it names one (R120). -/
def Entry.Within (e : Entry) (layers : Nat) : Prop := ∀ m, e = .branch m → 0 < m ∧ m < layers

theorem Lut.wf_iff (t : Lut) :
    Lut.wf t = true ↔ t ≠ [] ∧ ∀ l ∈ t, l.length = 256 ∧ ∀ e ∈ l, Entry.Within e t.length := by
  simp only [Lut.wf, Bool.and_eq_true, Bool.not_eq_true', List.isEmpty_eq_false_iff, List.all_eq_true, beq_iff_eq]
  refine and_congr_right fun _ => forall₂_congr fun l _ => and_congr_right fun _ => forall₂_congr fun e _ => ?_
  cases e <;> simp [Entry.Within]

/-- In a well-formed table every index finds an entry in an allocated layer (R51). -/
theorem Lut.wf_entry {t : Lut} (h : Lut.wf t = true) {l i : Nat} (hl : l < t.length) (hi : i < 256) :
    ∃ e, t.entry? l i = some e ∧ Entry.Within e t.length := by
  obtain ⟨hlen, he⟩ := ((Lut.wf_iff t).mp h).2 t[l] (List.getElem_mem hl)
  refine ⟨t[l][i], ?_, he _ (List.getElem_mem _)⟩
  simp [Lut.entry?, List.getElem?_eq_getElem hl, List.getElem?_eq_getElem (hlen ▸ hi : i < t[l].length)]

theorem Layer.fresh_wf : Lut.wf [Layer.fresh] = true := by
  rw [Lut.wf_iff]
  refine ⟨by simp, fun l hl => ?_⟩
  obtain rfl := List.mem_singleton.mp hl
  refine ⟨List.length_replicate .., fun e he => ?_⟩
  obtain rfl := List.eq_of_mem_replicate he
  intro m hm
  cases hm

/-- Replacing a layer by one of the right form keeps the form. -/
theorem Lut.wf_set {t : Lut} (h : Lut.wf t = true) {i : Nat} {l : Layer} (hl : l.length = 256)
    (he : ∀ e ∈ l, Entry.Within e t.length) : Lut.wf (t.set i l) = true := by
  rw [Lut.wf_iff] at h ⊢
  refine ⟨by simpa using h.1, fun x hx => ?_⟩
  rw [List.length_set]
  rcases List.mem_or_eq_of_mem_set hx with hx | rfl
  · exact h.2 x hx
  · exact ⟨hl, he⟩

/-- Writing a leaf's run keeps the form, collision or not (R121). -/
theorem placeLeaf_wf {t : Lut} (h : Lut.wf t = true) {l : Nat} (hl : l < t.length) (sym : Fin 257) (b : List Bool) :
    (∀ u, placeLeaf t l sym b = .ok u → Lut.wf u = true ∧ t.length ≤ u.length) ∧
    (∀ u, placeLeaf t l sym b = .error u → Lut.wf u = true) := by
  have hx := ((Lut.wf_iff t).mp h).2 t[l] (List.getElem_mem hl)
  have key : ∀ e skip n, Entry.Within e t.length →
      Lut.wf (t.set l (fillRun e skip n (t.getD l [])).1) = true := fun e skip n he => by
    have hd : t.getD l [] = t[l] := by simp [List.getD_eq_getElem?_getD, List.getElem?_eq_getElem hl]
    refine Lut.wf_set h (by rw [fillRun_length, hd, hx.1]) fun y hy => ?_
    rcases fillRun_mem hy with hy | rfl
    · exact hx.2 y (hd ▸ hy)
    · exact he
  have hleaf : Entry.Within (.leaf sym (Fin.ofNat 8 (b.length - 1))) t.length := fun m hm => by cases hm
  constructor <;> intro u hu <;> simp only [placeLeaf] at hu <;> split at hu <;> cases hu
  · exact ⟨key _ _ _ hleaf, by simp⟩
  · exact key _ _ _ hleaf

/-- Placing a code keeps the form and frees no layer, collision or not (R121). -/
theorem place_wf (sym : Fin 257) (fuel : Nat) {t : Lut} (h : Lut.wf t = true) {l : Nat} (hl : l < t.length)
    (b : List Bool) :
    (∀ u, place sym fuel l b t = .ok u → Lut.wf u = true) ∧
    (∀ u, place sym fuel l b t = .error u → Lut.wf u = true) := by
  induction fuel generalizing t l b with
  | zero => exact ⟨fun u hu => by cases hu; exact h, fun u hu => by cases hu⟩
  | succ fuel ih =>
    rw [place]
    split
    · exact ⟨fun u hu => ((placeLeaf_wf h hl sym b).1 u hu).1, (placeLeaf_wf h hl sym b).2⟩
    · dsimp only
      split
      · next m hm =>
        obtain ⟨hlen, he⟩ := ((Lut.wf_iff t).mp h).2 t[l] (List.getElem_mem hl)
        have hmem : Entry.branch m ∈ t[l] := by
          simp only [Lut.entry?, List.getElem?_eq_getElem hl, Option.bind_some] at hm
          exact List.mem_of_getElem? hm
        exact ih h (he _ hmem m rfl).2 _
      · refine ih ?_ (by simp) _
        have hwf := (Lut.wf_iff t).mp h
        have hd : t.getD l [] = t[l] := by simp [List.getD_eq_getElem?_getD, List.getElem?_eq_getElem hl]
        have grow : ∀ e : Entry, Entry.Within e t.length → Entry.Within e (t.length + 1) :=
          fun e he m hm => ⟨(he m hm).1, by have := (he m hm).2; omega⟩
        rw [Lut.wf_iff]
        refine ⟨by simp, fun x hx => ?_⟩
        simp only [List.length_append, List.length_set, List.length_singleton]
        rw [List.mem_append] at hx
        rcases hx with hx | hx
        · rcases List.mem_or_eq_of_mem_set hx with hx | rfl
          · exact ⟨(hwf.2 x hx).1, fun e he => grow e ((hwf.2 x hx).2 e he)⟩
          · have hl' := hwf.2 t[l] (List.getElem_mem hl)
            refine ⟨by rw [List.length_set, hd, hl'.1], fun e he => ?_⟩
            rcases List.mem_or_eq_of_mem_set he with he | rfl
            · exact grow e (hl'.2 e (hd ▸ he))
            · intro m hm
              cases hm
              exact ⟨by omega, by omega⟩
        · obtain rfl := List.mem_singleton.mp hx
          refine ⟨List.length_replicate .., fun e he => ?_⟩
          obtain rfl := List.eq_of_mem_replicate he
          intro m hm
          cases hm
      · exact ⟨fun u hu => by (cases hu), fun u hu => by cases hu; exact h⟩
      · exact ⟨fun u hu => by (cases hu), fun u hu => by cases hu; exact h⟩

theorem placeAll_wf (codes : CodeTable) {t : Lut} (h : Lut.wf t = true) :
    (∀ u, placeAll codes t = .ok u → Lut.wf u = true) ∧ (∀ u, placeAll codes t = .error u → Lut.wf u = true) := by
  induction codes generalizing t with
  | nil => exact ⟨fun u hu => by cases hu; exact h, fun u hu => by cases hu⟩
  | cons c cs ih =>
    have hroot : 0 < t.length := List.length_pos_iff.mpr ((Lut.wf_iff t).mp h).1
    have hp := place_wf c.sym c.len h hroot c.pattern
    rw [placeAll]
    split
    · next t' ht => exact ih (hp.1 t' ht)
    · next t' ht => exact ⟨fun u hu => by (cases hu), fun u hu => by cases hu; exact hp.2 _ ht⟩

/-- Every build, finished or stopped by a collision, leaves a table of the form R120 gives. -/
theorem build_wf (codes : CodeTable) :
    (∀ u, build codes = .ok u → Lut.wf u = true) ∧ (∀ u, build codes = .error u → Lut.wf u = true) :=
  placeAll_wf codes Layer.fresh_wf

/-- The table after reset has the form (R20). -/
theorem reset_lut_wf : Lut.wf State.reset.lut = true := Layer.fresh_wf

end Sys2Proof.Machine
end

