-- ==== Sys2Proof/Laws/Huffman.lean ====
section
/-! SUPPORT. What the shared operations of the Huffman commands can do, each said once. -/
namespace Sys2Proof.Machine

/-- Everything one iteration of the decode loop can do when it answers a next state (R124), an arm each. -/
inductive DecodeStepTo (s : State) : State → Prop where
  | notBuilt (hv : s.lutValid = false) : DecodeStepTo s (s.raise .lutNotBuilt)
  | done (hv : s.lutValid = true) (hd : s.hdone = true) : DecodeStepTo s s
  | exhausted (hv : s.lutValid = true) (hd : s.hdone = false) (hr : s.rb = 0) : DecodeStepTo s s.stopDecode
  | eosLeaf (hv : s.lutValid = true) (hd : s.hdone = false) (hr : 0 < s.rb) (hc : s.cursorLegal = true)
      (extra : Fin 8) (he : s.lut.entry? s.lp s.peek.toNat = some (.leaf Config.eos extra)) :
      DecodeStepTo s (s.raise .huffEos)
  | leaf (hv : s.lutValid = true) (hd : s.hdone = false) (hr : 0 < s.rb) (hc : s.cursorLegal = true)
      (sym : Fin 257) (extra : Fin 8) (he : s.lut.entry? s.lp s.peek.toNat = some (.leaf sym extra))
      (hs : sym ≠ Config.eos) :
      DecodeStepTo s ((s.emit [BitVec.ofNat 8 sym.val]).shift (extra.val + 1) |>.setLp 0)
  | lastBranch (hv : s.lutValid = true) (hd : s.hdone = false) (hr : 0 < s.rb) (hc : s.cursorLegal = true)
      (m : Nat) (he : s.lut.entry? s.lp s.peek.toNat = some (.branch m)) (hb : s.rb < 8) :
      DecodeStepTo s (s.shift s.rb).stopDecode
  | branch (hv : s.lutValid = true) (hd : s.hdone = false) (hr : 0 < s.rb) (hc : s.cursorLegal = true)
      (m : Nat) (he : s.lut.entry? s.lp s.peek.toNat = some (.branch m)) (hb : 8 ≤ s.rb) :
      DecodeStepTo s ((s.shift 8).setLp m)
  | miss (hv : s.lutValid = true) (hd : s.hdone = false) (hr : 0 < s.rb) (hc : s.cursorLegal = true)
      (he : s.lut.entry? s.lp s.peek.toNat = some .empty) : DecodeStepTo s (s.raise .lutMiss)

/-- An iteration that answers a next state is one of the arms. -/
theorem decodeStep_cases {s t : State} (h : decodeStep s = .next t) : DecodeStepTo s t := by
  rw [decodeStep] at h
  cases hv : s.lutValid with
  | false => rw [hv] at h; cases h; exact .notBuilt hv
  | true =>
    cases hd : s.hdone with
    | true => rw [hv, hd] at h; cases h; exact .done hv hd
    | false =>
      simp only [hv, hd, if_true, Bool.false_eq_true, if_false] at h
      by_cases hr : s.rb = 0
      · rw [if_pos hr] at h; cases h; exact .exhausted hv hd hr
      · rw [if_neg hr] at h
        have hr' : 0 < s.rb := Nat.pos_of_ne_zero hr
        cases hc : s.cursorLegal with
        | false => rw [hc] at h; cases h
        | true =>
          rw [hc, if_pos rfl] at h
          split at h
          · next sym extra he =>
            rw [takeLeaf] at h
            by_cases hs : sym = Config.eos
            · rw [if_pos hs] at h; cases h; subst hs; exact .eosLeaf hv hd hr' hc extra he
            · rw [if_neg hs] at h; cases h; exact .leaf hv hd hr' hc sym extra he hs
          · next m he =>
            rw [takeBranch] at h
            by_cases hb : s.rb < Config.peekBits
            · rw [if_pos hb] at h; cases h; exact .lastBranch hv hd hr' hc m he hb
            · rw [if_neg hb] at h; cases h; exact .branch hv hd hr' hc m he (Nat.not_lt.mp hb)
          · next he => cases h; exact .miss hv hd hr' hc he
          · cases h

/-- An iteration never refuses, and stops the model only where the cursor or the layer does not exist. -/
theorem decodeStep_stops {s : State} (h : ∀ t, decodeStep s ≠ .next t) :
    s.cursorLegal = false ∨ s.lut.entry? s.lp s.peek.toNat = none := by
  by_contra hcon
  rw [not_or, Bool.not_eq_false] at hcon
  obtain ⟨hc, he⟩ := hcon
  obtain ⟨e, he⟩ := Option.ne_none_iff_exists'.mp he
  refine absurd h ?_
  push Not
  rw [decodeStep]
  cases s.lutValid <;> cases s.hdone <;> by_cases hr : s.rb = 0 <;> simp [hr, hc, he]
  cases e with
  | empty => simp
  | leaf sym extra => simp only [takeLeaf]; split <;> simp
  | branch m => simp only [takeBranch]; split <;> simp

/-- What every iteration keeps, the loop keeps (R125). -/
theorem decodeLoop_keeps {P : State → Prop}
    (hstep : ∀ s t, P s → s.hdone = false → s.fault = none → DecodeStepTo s t → P t)
    {fuel : Nat} {s t : State} (hs : P s) (h : decodeLoop fuel s = .next t) : P t := by
  induction fuel generalizing s with
  | zero => cases h; exact hs
  | succ fuel ih =>
    rw [decodeLoop] at h
    split at h
    · cases h; exact hs
    · next hgo =>
      rw [Bool.or_eq_true, not_or, Bool.not_eq_true, Bool.not_eq_true, Option.isSome_eq_false_iff,
        Option.isNone_iff_eq_none] at hgo
      split at h
      · next u hu => exact ih (hstep s u hs hgo.1 hgo.2 (decodeStep_cases hu)) h
      · cases h
      · cases h

/-- The loop has ended once `HDONE` is set or a fault is recorded. -/
theorem decodeLoop_ended {s : State} (h : s.hdone = true ∨ s.fault ≠ none) (fuel : Nat) :
    decodeLoop fuel s = .next s := by
  cases fuel with
  | zero => rfl
  | succ fuel =>
    rw [decodeLoop, if_pos]
    rcases h with h | h
    · simp [h]
    · simp [Option.isSome_iff_ne_none.mpr h]

/-- Everything `HUF_BUILD` can do (R123). -/
theorem buildLut_cases (codes : CodeTable) (s : State) :
    (s.lutValid = true ∧ buildLut codes s = s) ∨
    (s.lutValid = false ∧ ∃ t, build codes = .ok t ∧ buildLut codes s = (s.setLut t).markBuilt) ∨
    (s.lutValid = false ∧ ∃ t, build codes = .error t ∧ buildLut codes s = (s.setLut t).raise .buildCollision) := by
  rw [buildLut]
  cases hv : s.lutValid with
  | true => exact .inl ⟨rfl, rfl⟩
  | false =>
    cases hb : build codes with
    | ok t => exact .inr (.inl ⟨rfl, t, rfl, rfl⟩)
    | error t => exact .inr (.inr ⟨rfl, t, rfl, rfl⟩)

end Sys2Proof.Machine
end

