-- ==== Sys2Proof/Laws/PerInstr.lean ====
section
/-! SUPPORT. The family `EncodeFields`: the four fields of an instruction's word, constructor by constructor (R71, R72):
the row's `op`, the operands in the fields the row uses, and zero in the others. -/
namespace Sys2Proof.Laws.EncodeFields

/-- The fields `op`, `n`, `flags`, `value` the opcode map gives the word of an instruction (R72). -/
def fields : Instr → BitVec 4 × BitVec 6 × Octet × Value
  | .bcLoad len => (1, 0, 0, len)
  | .bcPeek => (2, 0, 0, 0)
  | .bcShift n => (3, n, 0, 0)
  | .bcRemain => (4, 0, 0, 0)
  | .hufBuild => (5, 0, 0, 0)
  | .hufStep => (6, 0, 0, 0)
  | .hufDecode len => (7, 0, 0, len)
  | .viDec n => (8, n, 0, 0)
  | .viEnc n f v => (9, n, f, v)

/-- The word of `i` has the fields of its row. -/
def Statement (i : Instr) : Prop :=
  (opOf (encode i), countOf (encode i), flagsOf (encode i), valueOf (encode i)) = fields i

theorem bcLoad (len : Value) : Statement (.bcLoad len) := by simp [Statement, fields, encode]
theorem bcPeek : Statement .bcPeek := by simp [Statement, fields, encode]
theorem bcShift (n : BitVec 6) : Statement (.bcShift n) := by simp [Statement, fields, encode]
theorem bcRemain : Statement .bcRemain := by simp [Statement, fields, encode]
theorem hufBuild : Statement .hufBuild := by simp [Statement, fields, encode]
theorem hufStep : Statement .hufStep := by simp [Statement, fields, encode]
theorem hufDecode (len : Value) : Statement (.hufDecode len) := by simp [Statement, fields, encode]
theorem viDec (n : BitVec 6) : Statement (.viDec n) := by simp [Statement, fields, encode]
theorem viEnc (n : BitVec 6) (f : Octet) (v : Value) : Statement (.viEnc n f v) := by
  simp [Statement, fields, encode]

end Sys2Proof.Laws.EncodeFields
end

