-- ==== Sys2Proof/Laws/Varint.lean ====
section
/-! SUPPORT. The varint unit: the payload of continuation octets, and what the decoding loop can do. -/
namespace Sys2Proof.Machine

/-! ### Payloads (R81) -/

@[simp] theorem payload_nil : payload [] = 0 := rfl

theorem payload_cons (c : Octet) (cs : List Octet) : payload (c :: cs) = c.toNat % 128 + 128 * payload cs := rfl

/-- A further octet has the weight `2^(7i)`, `i` the number of octets before it (R81). -/
theorem payload_append (cs ds : List Octet) : payload (cs ++ ds) = payload cs + 2 ^ (7 * cs.length) * payload ds := by
  induction cs with
  | nil => simp
  | cons c cs ih =>
    rw [List.cons_append, payload_cons, payload_cons, ih, List.length_cons, Nat.mul_succ, pow_add]
    ring

/-- The payload of an octet is its low 7 bits (R81). -/
theorem octet_and_7f (c : Octet) : c.toNat &&& 0x7f = c.toNat % 128 := Nat.and_two_pow_sub_one_eq_mod c.toNat 7

/-- The prefix is the low `N` bits of the first octet (R81, R151). -/
theorem octet_and_prefixMask (c : Octet) (n : BitVec 6) : c.toNat &&& prefixMask n = c.toNat % 2 ^ n.toNat :=
  Nat.and_two_pow_sub_one_eq_mod c.toNat n.toNat

/-! ### The decoding loop (R151) -/

/-- Everything the loop can do from a source of octets `rest`, in order of the octets. -/
inductive ContinuationTo : (rest : List Octet) → (i acc : Nat) → State → State → Prop where
  | truncated (i acc : Nat) (s : State) : ContinuationTo [] i acc s (s.raise .truncatedInput)
  | overflow (c : Octet) (rest : List Octet) (i acc : Nat) (s : State)
      (h : 2 ^ 62 - 1 < acc + (c.toNat % 128) * 2 ^ (7 * i)) :
      ContinuationTo (c :: rest) i acc s ((s.advance 1).raise .varintOverflow)
  | last (c : Octet) (rest : List Octet) (i acc : Nat) (s : State)
      (h : acc + (c.toNat % 128) * 2 ^ (7 * i) ≤ 2 ^ 62 - 1) (hc : c.getLsbD 7 = false) :
      ContinuationTo (c :: rest) i acc s ((s.advance 1).setResult (acc + (c.toNat % 128) * 2 ^ (7 * i)))
  | more (c : Octet) (rest : List Octet) (i acc : Nat) (s t : State)
      (h : acc + (c.toNat % 128) * 2 ^ (7 * i) ≤ 2 ^ 62 - 1) (hc : c.getLsbD 7 = true)
      (ht : ContinuationTo rest (i + 1) (acc + (c.toNat % 128) * 2 ^ (7 * i)) (s.advance 1) t) :
      ContinuationTo (c :: rest) i acc s t

/-- The loop always answers a next state, and it is one of those. -/
theorem decodeContinuation_cases (rest : List Octet) (i acc : Nat) (s : State) :
    ∃ t, decodeContinuation rest i acc s = .next t ∧ ContinuationTo rest i acc s t := by
  induction rest generalizing i acc s with
  | nil => exact ⟨_, rfl, .truncated i acc s⟩
  | cons c rest ih =>
    rw [decodeContinuation, octet_and_7f, Nat.shiftLeft_eq]
    split
    · next h =>
      split
      · next hc =>
        obtain ⟨t, ht, hct⟩ := ih (i + 1) (acc + (c.toNat % 128) * 2 ^ (7 * i)) (s.advance 1)
        exact ⟨t, ht, .more c rest i acc s t h hc hct⟩
      · next hc => exact ⟨_, rfl, .last c rest i acc s h (by simpa using hc)⟩
    · next h => exact ⟨_, rfl, .overflow c rest i acc s (Nat.lt_of_not_le h)⟩

/-- The loop changes `IP`, `RESULT` and `FAULT` only (R151). -/
theorem ContinuationTo.frame {rest : List Octet} {i acc : Nat} {s t : State} (h : ContinuationTo rest i acc s t) :
    t = { s with ip := t.ip, result := t.result, fault := t.fault } ∧ s.ip ≤ t.ip ∧
      (t.fault = s.fault ∨ (t.result = s.result ∧
        (t.fault = some .truncatedInput ∨ t.fault = some .varintOverflow))) := by
  induction h with
  | truncated => exact ⟨rfl, le_rfl, .inr ⟨rfl, .inl rfl⟩⟩
  | overflow => exact ⟨rfl, by simp, .inr ⟨rfl, .inr rfl⟩⟩
  | last => exact ⟨rfl, by simp, .inl rfl⟩
  | more c rest i acc s t h hc ht ih =>
    obtain ⟨h1, h2, h3⟩ := ih
    refine ⟨?_, ?_, h3⟩
    · rw [h1]; rfl
    · simp at h2; omega

/-- `VI_DEC` from its first octet: the source is exhausted, the prefix is the value, or the loop runs (R151). -/
theorem decodeVarint_cases (m : Nat) (s : State) :
    (s.source = [] ∧ decodeVarint m s = .next (s.raise .truncatedInput)) ∨
    (∃ b0 rest, s.source = b0 :: rest ∧ b0.toNat &&& m < m ∧
      decodeVarint m s = .next ((s.advance 1).setResult (b0.toNat &&& m))) ∨
    (∃ b0 rest, s.source = b0 :: rest ∧ m ≤ b0.toNat &&& m ∧
      decodeVarint m s = decodeContinuation rest 0 m (s.advance 1)) := by
  rw [decodeVarint]
  split
  · next h => exact .inl ⟨h, rfl⟩
  · next b0 rest h =>
    dsimp only
    by_cases hp : b0.toNat &&& m < m
    · exact .inr (.inl ⟨b0, rest, h, hp, by rw [if_pos hp]⟩)
    · exact .inr (.inr ⟨b0, rest, h, Nat.le_of_not_lt hp, by rw [if_neg hp]⟩)

end Sys2Proof.Machine
end

