-- ==== Sys2Proof/Laws/Step.lean ====
section
/-! SUPPORT. What a step can do, said once: the host is idle, or one of its moves is performed (R215). -/
namespace Sys2Proof.Machine

/-- A step answers the state itself when the host offers no move, and otherwise what its next move answers. -/
theorem step_cases (s : State) :
    (s.pending = [] ∧ step s = .next s) ∨
    (∃ m ms, s.pending = m :: ms ∧ step s = perform m (s.withPending ms)) := by
  rw [step, nextMove]
  cases hp : s.pending with
  | nil => exact .inl ⟨rfl, rfl⟩
  | cons m ms => exact .inr ⟨m, ms, rfl, rfl⟩

/-- Issuing a word runs the command it decodes to, is refused, or raises `IllegalCommand` (R180). -/
theorem issueCommand_cases (w : CmdWord) (s : State) :
    (∃ i, decode w = .ok i ∧ issueCommand w s = exec i s) ∨
    (∃ e c, decode w = .error e ∧ s.fault = some c ∧ issueCommand w s = .next s) ∨
    (∃ e, decode w = .error e ∧ s.fault = none ∧ issueCommand w s = .next (s.raise .illegalCommand)) := by
  rw [issueCommand]
  cases hd : decode w with
  | ok i => exact .inl ⟨i, rfl, rfl⟩
  | error e =>
    cases hf : s.fault with
    | some c => exact .inr (.inl ⟨e, c, rfl, rfl, command_faulted hf _ _⟩)
    | none => exact .inr (.inr ⟨e, rfl, rfl, command_illegal hf _⟩)

/-- LoadInput is performed, or has no effect while a fault is recorded (R184, R215). -/
theorem perform_loadInput_cases (d : List Octet) (s : State) :
    (s.fault = none ∧ perform (.loadInput d) s = .next (s.loadInput d)) ∨
    ((∃ c, s.fault = some c) ∧ perform (.loadInput d) s = .next s) := by
  rw [perform]
  cases hf : s.fault with
  | none => exact .inl ⟨rfl, rfl⟩
  | some c => exact .inr ⟨⟨c, rfl⟩, rfl⟩

end Sys2Proof.Machine
end

