-- ==== Sys2Proof/Tests/Slice0.lean ====
section
/-! SUPPORT. Tests against spec/95_test_vectors.md, the well-formedness smoke test, and, for every statement with
hypotheses, witnesses that meet them. -/
namespace Sys2Proof.Tests
open Sys2Proof.Machine

/-! ### Helpers -/

/-- A property of the next state; false of a stop. -/
def after (r : Result) (p : State → Bool) : Bool :=
  match r with
  | .next t => p t
  | .fault _ => false
  | .refused _ => false

/-- LoadInput of these octets after a hard reset. -/
def input (d : List Octet) : State := State.reset.loadInput d

/-- A cursor over the whole of these octets. -/
def cursorOver (d : List Octet) : State := (input d).loadCursor d.length

/-- Six entries of the table of R122, in two layers: enough for the steps below. -/
def tinyLut : Lut :=
  [((((Layer.fresh.set 0x64 (.leaf 51 5)).set 0x00 (.leaf 48 4)).set 0x17 (.leaf 50 4)).set 0xff (.branch 1)),
   ((Layer.fresh.set 0xc7 (.leaf 0 4)).set 0xff (.leaf 256 5))]

/-- A state with that table built and a cursor over these octets. -/
def tiny (d : List Octet) : State := ((cursorOver d).setLut tinyLut).markBuilt

/-- The state with a fault recorded. -/
def faulted : State := (tiny [0x64]).raise .truncatedInput

/-- The table a build leaves. -/
def tableOf (r : Except Lut Lut) : Lut :=
  match r with
  | .ok t => t
  | .error t => t

/-- The table built from the supplied `HUFF_CODES`. -/
@[irreducible] def builtTable : Lut := tableOf (build Config.huffCodes)

/-- A state with the supplied table built and these octets loaded. -/
def built (d : List Octet) : State := ((input d).setLut builtTable).markBuilt

/-! ### Well-formedness: an ill-formed term for each check -/

theorem test_wf_shift_0 : Instr.wf (.bcShift 0) = false := by decide
theorem test_wf_shift_33 : Instr.wf (.bcShift 33) = false := by decide
theorem test_wf_dec_2 : Instr.wf (.viDec 2) = false := by decide
theorem test_wf_dec_9 : Instr.wf (.viDec 9) = false := by decide
theorem test_wf_enc_2 : Instr.wf (.viEnc 2 0 0) = false := by decide
theorem test_wf_enc_9 : Instr.wf (.viEnc 9 0 0) = false := by decide
theorem test_wf_extremes :
    (Instr.wf (.bcShift 1) && Instr.wf (.bcShift 32) && Instr.wf (.viDec 3) && Instr.wf (.viDec 8) &&
      Instr.wf (.viEnc 3 0xff 0x3fffffffffffffff) && Instr.wf (.viEnc 8 0 0)) = true := by decide

/-! ### Decoding: the words of spec/95, one per constructor, and illegal words by name (L2.5) -/

theorem test_decode_bcLoad : decode 0x10000000000000000005 = .ok (.bcLoad 5) := by decide
theorem test_decode_bcPeek : decode 0x20000000000000000000 = .ok .bcPeek := by decide
theorem test_decode_bcShift : decode 0x38000000000000000000 = .ok (.bcShift 32) := by decide
theorem test_decode_bcRemain : decode 0x40000000000000000000 = .ok .bcRemain := by decide
theorem test_decode_hufBuild : decode 0x50000000000000000000 = .ok .hufBuild := by decide
theorem test_decode_hufStep : decode 0x60000000000000000000 = .ok .hufStep := by decide
theorem test_decode_hufDecode : decode 0x70000000000000000011 = .ok (.hufDecode 17) := by decide
theorem test_decode_viDec : decode 0x80c00000000000000000 = .ok (.viDec 3) := by decide
theorem test_decode_viEnc : decode 0x9178000000000000001f = .ok (.viEnc 5 0xe0 31) := by decide
theorem test_decode_viEnc_all_ones : decode 0x90ffffffffffffffffff = .ok (.viEnc 3 0xff 0x3fffffffffffffff) := by decide
theorem test_decode_op_0 : decode 0x00000000000000000000 = .error .unknownOp := by decide
theorem test_decode_op_10 : decode 0xa0000000000000000000 = .error .unknownOp := by decide
theorem test_decode_peek_value : decode 0x20000000000000000001 = .error .unusedField := by decide
theorem test_decode_load_flags : decode 0x10004000000000000005 = .error .unusedField := by decide
theorem test_decode_shift_33 : decode 0x38400000000000000000 = .error .countRange := by decide
theorem test_decode_enc_2 : decode 0x90800000000000000005 = .error .countRange := by decide
theorem test_decodeTableWord : decodeTableWord 80 0x31800000000000000000 = some (.bcShift 6) := by decide

/-! ### Commands, one step each (spec/95, the row named) -/

/-- CUR3 -/
theorem test_bcLoad : after (exec (.bcLoad 2) (input [0x64, 0x02]))
    (fun t => t.window == 0x6402FFFF && t.rb == 16 && t.ip == 2) = true := by decide +kernel
/-- FLT5 -/
theorem test_bcLoad_truncated : after (exec (.bcLoad 3) (input [0x64, 0x02]))
    (fun t => t == (input [0x64, 0x02]).raise .truncatedInput) = true := by decide +kernel
/-- CUR1 row 2 -/
theorem test_bcPeek : after (exec .bcPeek (cursorOver [0xae, 0xc3, 0x77, 0x1a, 0x4b]))
    (fun t => t.result == 0xAE && t.rb == 40) = true := by decide +kernel
/-- CUR4 -/
theorem test_bcPeek_empty : after (exec .bcPeek State.reset) (fun t => t.result == 0xFF) = true := by decide +kernel
/-- CUR1 row 3 -/
theorem test_bcShift : after (exec (.bcShift 6) (cursorOver [0xae, 0xc3, 0x77, 0x1a, 0x4b]))
    (fun t => t.window == 0xB0DDC692 && t.rb == 34) = true := by decide +kernel
/-- CUR2, third shift -/
theorem test_bcShift_last : after (exec (.bcShift 13) ((cursorOver [1, 2, 3, 4, 5, 6, 7, 8]).shift 35))
    (fun t => t.window == 0x0708FFFF && t.rb == 16) = true := by decide +kernel
/-- CUR1 row 6 -/
theorem test_bcRemain : after (exec .bcRemain ((cursorOver [0xae, 0xc3, 0x77, 0x1a, 0x4b]).shift 38))
    (fun t => t.result == 2) = true := by decide +kernel
/-- R123: a second build changes nothing. -/
theorem test_hufBuild_again : after (exec .hufBuild (tiny [0x64])) (fun t => t == tiny [0x64]) = true := by
  decide +kernel
/-- PRG3 row 3 -/
theorem test_hufStep : after (exec .hufStep (tiny [0x64, 0x02]))
    (fun t => t.out == [0x33] && t.rb == 10 && t.window == 0x00BFFFFF && t.lp == 0) = true := by decide +kernel
/-- HUF29, the fourth lookup, in the second layer of the small table -/
theorem test_hufStep_eos : after (exec .hufStep ((tiny [0xff]).setLp 1))
    (fun t => t.faultCode == 6 && t.out == [] && t.rb == 8 && t.lp == 1) = true := by decide +kernel
/-- SRC5 -/
theorem test_hufDecode : after (exec (.hufDecode 2) ((tiny [0x64, 0x02]).loadInput [0x64, 0x02]))
    (fun t => t.out == [0x33, 0x30, 0x32] && t.status == 0x30 && t.ip == 2) = true := by decide +kernel
/-- FLT12: `LutNotBuilt` wins over `TruncatedInput`. -/
theorem test_hufDecode_order : after (exec (.hufDecode 3) (input [0x64, 0x02]))
    (fun t => t.status == 0x04 && t.ip == 0) = true := by decide +kernel
/-- SRC2 -/
theorem test_viDec : after (exec (.viDec 5) (input [0xff, 0x9a, 0x0a]))
    (fun t => t.result == 1337 && t.ip == 3 && t.fault == none) = true := by decide +kernel
/-- VDEC16 -/
theorem test_viDec_overflow :
    after (exec (.viDec 5) (input [0x1f, 0xe1, 0xff, 0xff, 0xff, 0xff, 0xff, 0xff, 0xff, 0x3f]))
      (fun t => t.faultCode == 3 && t.ip == 10 && t.result == 0) = true := by decide +kernel
/-- VENC2 -/
theorem test_viEnc : after (exec (.viEnc 5 0 1337) State.reset) (fun t => t.out == [0x1f, 0x9a, 0x0a]) = true := by
  decide +kernel
/-- VENC23: `v = 128` -/
theorem test_viEnc_128 : after (exec (.viEnc 5 0 159) State.reset) (fun t => t.out == [0x1f, 0x80, 0x01]) = true := by
  decide +kernel

/-- PRG4 rows 3 and 5: a faulted block refuses a command, and a soft reset clears the fault and keeps the table. -/
theorem test_fault_and_recovery :
    after (issueCommand 0x9140000000000000000a faulted) (fun t => t == faulted) &&
    after (perform .softReset faulted) (fun t => t.status == 0x10 && t.inLen == 0 && t.lut == tinyLut) = true := by
  decide +kernel

/-- HUF34 and HUF30: entries of the supplied table, and a decode with it that ends in `HuffEos`. -/
theorem test_supplied_table :
    ((build Config.huffCodes).isOk && Lut.wf builtTable &&
      builtTable.entry? 1 0xc7 == some (.leaf 0 4) && builtTable.entry? 2 0xff == some (.branch 4) &&
      builtTable.entry? 4 0xf3 == some (.leaf 10 5) &&
      after (exec (.hufDecode 4) (built [0x1f, 0xff, 0xff, 0xff]))
        (fun t => t.out == [0x61] && t.faultCode == 6 && t.rb == 3 && t.lp == 4)) = true := by decide +kernel

/-! ### Witnesses: states the statements are about -/

theorem eq_ok_tableOf {r : Except Lut Lut} (h : r.isOk = true) : r = .ok (tableOf r) := by
  cases r with
  | ok t => rfl
  | error t => cases h

theorem builtTable_is_snapshot : build Config.huffCodes = .ok builtTable := by
  have h := test_supplied_table
  simp only [Bool.and_eq_true] at h
  unfold builtTable
  exact eq_ok_tableOf h.1.1.1.1.1

theorem tinyLut_wf : Lut.wf tinyLut = true := by decide +kernel

theorem tiny_inv : (tiny [0x64, 0x02]).Inv :=
  ⟨by decide, by decide, by decide, by decide, by decide, by decide, tinyLut_wf⟩

theorem faulted_inv : faulted.Inv := ⟨by decide, by decide, by decide, by decide, by decide, by decide, tinyLut_wf⟩

theorem builtTable_wf : Lut.wf builtTable = true := (build_wf _).1 _ builtTable_is_snapshot

theorem builtTable_pos : 0 < builtTable.length := List.length_pos_iff.mpr ((Lut.wf_iff _).mp builtTable_wf).1

theorem built_inv (d : List Octet) : (built d).Inv :=
  ⟨by simp [built, input], by simp [built, input], by simp [built, input], by simpa [built, input] using builtTable_pos,
    by simp [built, input], by simp [built, input], by simpa [built, input] using builtTable_wf⟩

theorem built_snapshot (d : List Octet) : (built d).TableIsSnapshot := fun _ => builtTable_is_snapshot

/-! ### Witnesses: the hypotheses of each statement -/

theorem witness_DecoderIsTheOpcodeMap : decode (encode (.viEnc 3 0xff 7)) = .ok (.viEnc 3 0xff 7) ∧
    ∃ r ∈ opcodeMap, r.accepts (encode (.viEnc 3 0xff 7)) = true := by decide
theorem witness_OpcodeRowsDisjoint :
    ∃ r₁ ∈ opcodeMap, ∃ r₂ ∈ opcodeMap, r₁.accepts 0x38000000000000000000 = true ∧
      r₂.accepts 0x38000000000000000000 = true := by decide
theorem witness_DecodeOfEncode : Instr.wf (.bcShift 32) = true ∧ Instr.wf (.viDec 8) = true := by decide
theorem witness_EncodeOfDecode : decode 0x82000000000000000000 = .ok (.viDec 8) := by decide
theorem witness_IllegalWords_op : decode 0xf0000000000000000000 = .error .unknownOp := by decide
theorem witness_IllegalWords_field :
    decode 0x60400000000000000000 = .error .unusedField ∧ decode 0x50004000000000000000 = .error .unusedField ∧
    decode 0x81400000000000000001 = .error .unusedField := by decide
theorem witness_IllegalWords_count :
    decode 0x30000000000000000000 = .error .countRange ∧ decode 0x92400000000000000005 = .error .countRange := by decide
theorem witness_IllegalWords_ready : State.reset.Ready := rfl

/-- A host about to make the move `m`. -/
def offering (m : HostMove) (s : State) : State := s.withPending [m, .readOut]

theorem witness_StepRunsTheIssuedCommand :
    (offering (.issue 0x20000000000000000000) State.reset).pending = .issue 0x20000000000000000000 :: [.readOut] ∧
    decode 0x20000000000000000000 = .ok .bcPeek := by decide
theorem witness_HostMoveTable_resets : (offering .hardReset faulted).pending = .hardReset :: [.readOut] ∧
    (offering .softReset faulted).pending = .softReset :: [.readOut] := ⟨rfl, rfl⟩
theorem witness_HostMoveTable_load : (offering (.loadInput [1]) State.reset).pending = .loadInput [1] :: [.readOut] ∧
    (offering (.loadInput [1]) State.reset).Ready := ⟨rfl, rfl⟩
theorem witness_HostMoveTable_load_faulted : (offering (.loadInput [1]) faulted).pending = .loadInput [1] :: [.readOut] ∧
    (offering (.loadInput [1]) faulted).fault = some .truncatedInput := ⟨rfl, rfl⟩
theorem witness_HostMoveTable_issue : (offering (.issue 0) State.reset).pending = .issue 0 :: [.readOut] := rfl
theorem witness_HostMoveTable_reads : (offering .readResult faulted).pending = .readResult :: [.readOut] ∧
    (offering .readStatus faulted).pending = .readStatus :: [.readOut] ∧
    (offering .readOut faulted).pending = .readOut :: [.readOut] := ⟨rfl, rfl, rfl⟩
theorem witness_HardResetItems : faulted.hardReset = faulted.hardReset := rfl
theorem witness_TwoResets_kept : (offering (.issue 0) faulted).fault = some .truncatedInput ∧
    ∃ t, step (offering (.issue 0) faulted) = .next t := ⟨rfl, _, rfl⟩
theorem witness_TwoResets_cleared : (offering .softReset faulted).fault = some .truncatedInput ∧
    ∃ t, step (offering .softReset faulted) = .next t := ⟨rfl, _, rfl⟩

theorem offering_inv {s : State} (h : s.Inv) (m : HostMove) : (offering m s).Inv :=
  ⟨h.cursorInside, h.bitsInside, h.pointerInside, h.layerAllocated, h.rootWhenDone, h.rootWhenNotBuilt, h.tableWf⟩

theorem witness_StepKeepsInvariants : (offering (.issue 0x60000000000000000000) (tiny [0x64, 0x02])).Inv ∧
    after (step (offering (.issue 0x60000000000000000000) (tiny [0x64, 0x02]))) (fun t => t.out == [0x33]) = true :=
  ⟨offering_inv tiny_inv _, by decide +kernel⟩
theorem witness_NoStepStops : faulted.Inv ∧ faulted.fault = some .truncatedInput := ⟨faulted_inv, rfl⟩
theorem witness_ConformingHostBoundsInput : (offering .softReset State.reset).Conforming ∧
    (offering .softReset State.reset).Inv ∧ ∃ t, step (offering .softReset State.reset) = .next t :=
  ⟨⟨Nat.zero_le _, by simp [offering, HostMove.Allowed]⟩,
    ⟨by decide, by decide, by decide, by decide, by decide, by decide, Layer.fresh_wf⟩, _, rfl⟩

/-- The state the cursor statements run in: 16 real bits, 6 of them consumed. -/
def midCursor : State := (tiny [0x64, 0x02]).shift 6

theorem witness_WindowLaw_real : midCursor.cb + midCursor.cl ≤ midCursor.inLen ∧ midCursor.rb ≤ 8 * midCursor.cl ∧
    8 * midCursor.cl - midCursor.rb + 9 < 8 * midCursor.cl := by decide
theorem witness_WindowLaw_padding : 8 * midCursor.cl ≤ 8 * midCursor.cl - midCursor.rb + 10 := by decide
theorem witness_WindowLaw_function : midCursor.inBuf = (midCursor.setLp 1).inBuf ∧ midCursor.cb = (midCursor.setLp 1).cb ∧
    midCursor.cl = (midCursor.setLp 1).cl ∧ midCursor.rb = (midCursor.setLp 1).rb := ⟨rfl, rfl, rfl, rfl⟩
theorem witness_WindowLaw_empty : State.reset.rb = 0 := rfl
theorem witness_WindowLaw_ones : midCursor.rb ≤ 8 * midCursor.cl ∧ 21 < 32 - midCursor.rb := by decide
theorem witness_ValidBitsDerived : midCursor.rb ≤ 8 * midCursor.cl := by decide
theorem witness_BcLoadRule_window : (input [0x64, 0x02]).Ready ∧
    (input [0x64, 0x02]).ip + (2 : Value).toNat ≤ (input [0x64, 0x02]).inLen ∧
    ∃ t, exec (.bcLoad 2) (input [0x64, 0x02]) = .next t := ⟨rfl, by decide, _, rfl⟩
theorem witness_PeekAndShift : midCursor.rb ≤ 8 * midCursor.cl ∧ midCursor.rb ≤ 32 ∧
    (tiny [0x64, 0x02]).rb ≤ 8 * (tiny [0x64, 0x02]).cl ∧ 1 < (tiny [0x64, 0x02]).rb := by decide
theorem witness_BcLoadRule_fits : (input [0x64, 0x02]).ip + (2 : Value).toNat ≤ (input [0x64, 0x02]).inLen := by decide
theorem witness_BcLoadRule_truncated : (input [0x64, 0x02]).inLen < (input [0x64, 0x02]).ip + (3 : Value).toNat := by
  decide
theorem witness_BcPeekRule : midCursor.Ready ∧ midCursor.cb + midCursor.cl ≤ midCursor.inLen ∧
    midCursor.rb ≤ 8 * midCursor.cl := by decide
theorem witness_BcPeekRule_empty : State.reset.Ready ∧ State.reset.rb = 0 ∧
    State.reset.cb + State.reset.cl ≤ State.reset.inLen := by decide
theorem witness_BcShiftRule_legal : midCursor.Ready ∧ 1 ≤ (32 : BitVec 6).toNat ∧ (32 : BitVec 6).toNat ≤ 32 := by decide
theorem witness_BcShiftRule_illegal : (0 : BitVec 6).toNat = 0 ∧ 32 < (33 : BitVec 6).toNat := by decide
theorem witness_BcShiftRule_accumulates : (32 : BitVec 6).toNat = (1 : BitVec 6).toNat + (31 : BitVec 6).toNat := by decide
theorem witness_BcRemainRule : State.reset.Ready ∧ State.reset.Inv ∧ State.reset.Conforming ∧ State.reset.rb < 2 ^ 62 ∧
    ∃ t, exec .bcRemain State.reset = .next t :=
  ⟨rfl, ⟨by decide, by decide, by decide, by decide, by decide, by decide, Layer.fresh_wf⟩,
    ⟨Nat.zero_le _, by simp [State.reset]⟩, by decide, _, rfl⟩
theorem witness_CursorCommandsNeverFault : midCursor.Ready ∧ midCursor.cb + midCursor.cl ≤ midCursor.inLen ∧
    midCursor.rb ≤ 8 * midCursor.cl ∧ Instr.wf (.bcShift 32) = true := by decide
theorem witness_CursorFrame : (∃ t, exec .bcPeek midCursor = .next t) ∧ (∃ t, exec .bcRemain midCursor = .next t) ∧
    (∃ t, exec (.bcShift 0) midCursor = .next t) ∧ (∃ t, exec (.bcLoad 0) midCursor = .next t) :=
  ⟨⟨_, rfl⟩, ⟨_, rfl⟩, ⟨_, rfl⟩, ⟨_, rfl⟩⟩

/-- A small prefix-free table, a table with one pattern twice, and one with a pattern of no bits. -/
def twoCodes : CodeTable := [⟨0, 0, 1⟩, ⟨1, 0x1fe, 9⟩]
def clashingCodes : CodeTable := [⟨0, 0, 1⟩, ⟨1, 0, 5⟩]

theorem witness_BuildSucceedsIffPrefixFree : CodeTable.NonEmpty twoCodes ∧ CodeTable.PrefixFree twoCodes ∧
    CodeTable.NonEmpty clashingCodes ∧ ¬ CodeTable.PrefixFree clashingCodes := by decide
theorem witness_EntryMeaning : CodeTable.NonEmpty twoCodes ∧
    (match build twoCodes with
      | .ok t => t.walk 0 [0xff] == some 1 && t.entry? 1 0x7f == some (.leaf 1 0) && t.entry? 1 0x80 == some .empty
      | .error _ => false) = true := by decide +kernel
theorem witness_HufBuildRule_first : State.reset.Ready ∧ State.reset.lutValid = false := ⟨rfl, rfl⟩
theorem witness_HufBuildRule_again : (tiny [0x64]).Ready ∧ (tiny [0x64]).lutValid = true := ⟨rfl, rfl⟩
theorem witness_HufBuildRule_collision : State.reset.lutValid = false ∧ (build clashingCodes).isOk = false := by
  decide +kernel
theorem witness_TableImmutableOnceBuilt : (offering .softReset (tiny [0x64])).lutValid = true ∧
    (∃ t, step (offering .softReset (tiny [0x64])) = .next t) ∧
    ∀ rest, (offering .softReset (tiny [0x64])).pending ≠ .hardReset :: rest :=
  ⟨rfl, ⟨_, rfl⟩, by simp [offering]⟩
theorem witness_StepKeepsSnapshot : (offering .softReset (built [0x1f])).TableIsSnapshot ∧
    (offering .softReset (built [0x1f])).lutValid = true ∧
    ∃ t, step (offering .softReset (built [0x1f])) = .next t := ⟨fun _ => builtTable_is_snapshot, rfl, _, rfl⟩
theorem witness_NoMissNoCollision : (offering (.issue 0) (built [0x1f])).Inv ∧
    (offering (.issue 0) (built [0x1f])).TableIsSnapshot ∧ (offering (.issue 0) (built [0x1f])).Ready ∧
    after (step (offering (.issue 0) (built [0x1f]))) (fun t => t.fault == some .illegalCommand) = true :=
  ⟨offering_inv (built_inv _) _, fun _ => builtTable_is_snapshot, rfl, by decide +kernel⟩

theorem witness_HufStepRule_notBuilt : State.reset.Ready ∧ State.reset.lutValid = false := ⟨rfl, rfl⟩
theorem witness_HufStepRule_done : (tiny [0x64]).stopDecode.Ready ∧ (tiny [0x64]).stopDecode.hdone = true := ⟨rfl, rfl⟩
theorem witness_HufStepRule_exhausted : (tiny []).lutValid = true ∧ (tiny []).hdone = false ∧ (tiny []).rb = 0 :=
  ⟨rfl, rfl, rfl⟩
theorem witness_HufStepRule_leaf : (tiny [0x64, 0x02]).lut.entry? (tiny [0x64, 0x02]).lp
    ((tiny [0x64, 0x02]).window.extractLsb' 24 8).toNat = some (.leaf 51 5) := by decide +kernel
theorem witness_HufStepRule_eos : ((tiny [0xff]).setLp 1).lut.entry? ((tiny [0xff]).setLp 1).lp
    (((tiny [0xff]).setLp 1).window.extractLsb' 24 8).toNat = some (.leaf 256 5) := by decide +kernel
theorem witness_HufStepRule_branch : (tiny [0xff]).lut.entry? (tiny [0xff]).lp
    ((tiny [0xff]).window.extractLsb' 24 8).toNat = some (.branch 1) ∧ (tiny [0xff]).rb = 8 := by decide +kernel
theorem witness_HufStepRule_lastBranch : ((tiny [0xff]).shift 1).lut.entry? ((tiny [0xff]).shift 1).lp
    (((tiny [0xff]).shift 1).window.extractLsb' 24 8).toNat = some (.branch 1) ∧ ((tiny [0xff]).shift 1).rb = 7 := by
  decide +kernel
theorem witness_HufStepRule_miss : (tiny [0x65]).lut.entry? (tiny [0x65]).lp
    ((tiny [0x65]).window.extractLsb' 24 8).toNat = some .empty := by decide +kernel
theorem witness_HufStepProgress : (tiny [0x64]).Ready ∧ (tiny [0x64]).lutValid = true ∧ (tiny [0x64]).hdone = false ∧
    after (exec .hufStep (tiny [0x64])) (fun t => t.fault == none) = true := by decide +kernel
theorem witness_FourLookupsPerSymbol : ((built [0x1f]).loadCursor 1).TableIsSnapshot ∧
    ((built [0x1f]).loadCursor 1).Ready ∧ ((built [0x1f]).loadCursor 1).lutValid = true ∧
    ((built [0x1f]).loadCursor 1).hdone = false ∧ ((built [0x1f]).loadCursor 1).lp = 0 ∧
    after (execTimes .hufStep 4 ((built [0x1f]).loadCursor 1)) (fun t => t.hdone) = true :=
  ⟨fun _ => builtTable_is_snapshot, rfl, rfl, rfl, rfl, by decide +kernel⟩
theorem witness_HufDecodeIsLoadThenSteps : (tiny [0x64]).lutValid = true ∧ 8 * (1 : Value).toNat + 1 ≤ 10 := by decide
theorem witness_HufDecodeEnds : (tiny [0x64, 0x02]).Inv ∧ (tiny [0x64, 0x02]).Ready ∧
    (tiny [0x64, 0x02]).lutValid = true ∧
    (tiny [0x64, 0x02]).ip + (0 : Value).toNat ≤ (tiny [0x64, 0x02]).inLen := ⟨tiny_inv, rfl, rfl, by decide⟩
theorem witness_HufDecodeChecks : State.reset.lutValid = false ∧
    (tiny [0x64]).inLen < (tiny [0x64]).ip + (1 : Value).toNat ∧ (tiny [0x64]).ip ≤ (tiny [0x64]).inLen := by decide
theorem witness_HufDecodeWellFormed : (built [0x1f, 0x07]).TableIsSnapshot ∧ (built [0x1f, 0x07]).Ready ∧
    (built [0x1f, 0x07]).lutValid = true ∧
    (built [0x1f, 0x07]).inBuf.drop (built [0x1f, 0x07]).ip = huffCoding Config.huffCodes [0x61] ++ [0x07] ∧
    (1 : Value).toNat = (huffCoding Config.huffCodes [0x61]).length ∧
    (built [0x1f, 0x07]).ip ≤ (built [0x1f, 0x07]).inLen :=
  ⟨built_snapshot _, rfl, rfl, by decide +kernel, by decide +kernel, by decide⟩
theorem witness_LenientPadding : (built [0x18]).TableIsSnapshot ∧ (built [0x18]).Ready ∧ (built [0x18]).lutValid = true ∧
    (built [0x18]).ip ≤ (built [0x18]).inLen ∧ (built [0x18]).inBuf.drop (built [0x18]).ip = 0x18 :: [] ∧
    (built [0xff, 0xff, 0xff, 0xff]).inBuf.drop (built [0xff, 0xff, 0xff, 0xff]).ip = 0xff :: 0xff :: 0xff :: [0xff] :=
  ⟨built_snapshot _, rfl, rfl, by decide, rfl, rfl⟩
theorem witness_LenientDecoding_state : (built [0x18]).TableIsSnapshot ∧ (built [0x18]).Ready ∧
    (built [0x18]).lutValid = true ∧ (built [0x18]).ip ≤ (built [0x18]).inLen ∧
    (built [0x18]).inBuf.drop (built [0x18]).ip = [0x18] ++ [] ∧ (1 : Value).toNat = [(0x18 : Octet)].length :=
  ⟨built_snapshot _, rfl, rfl, by decide, rfl, by decide⟩
/-- The bits of `61` alone and a tail: `'a'` is `00011`. -/
def afterA (d : List Octet) : List Bool := (bitsOfOctets d).drop 5
theorem witness_LenientDecoding_bits : ∀ d ∈ ([[0x18], [0x1e], [0x1f, 0xff, 0xff], [0x1f, 0xff, 0xff, 0xff]] : List (List Octet)),
    bitsOfOctets d = ([(0x61 : Octet)].flatMap fun o => CodeTable.patternOf Config.huffCodes o.toNat) ++ afterA d := by
  decide +kernel
theorem witness_LenientDecoding_dropped : (∃ c ∈ Config.huffCodes,
    afterA [0x1f, 0xff, 0xff] ++ List.replicate 5 true <+: c.pattern ∧ 24 < c.pattern.length) ∧
    8 ∣ (afterA [0x1f, 0xff, 0xff]).length + 5 ∧ (afterA [0x1f, 0xff, 0xff]).length + 5 = 24 :=
  ⟨⟨⟨256, 0x3fffffff, 30⟩, by decide +kernel, by decide +kernel, by decide⟩, by decide, by decide⟩
theorem witness_LenientDecoding_completed :
    CodeTable.patternOf Config.huffCodes (0x61 : Octet).toNat = afterA [0x18] ++ List.replicate 2 true ∧
    8 * (((afterA [0x18]).length + 2 - 1) / 8) < (afterA [0x18]).length := by decide +kernel
theorem witness_LenientDecoding_ones : afterA [0x1f, 0xff, 0xff] = List.replicate 19 true ∧
    afterA [0x1f, 0xff, 0xff, 0xff] = List.replicate 27 true := by decide
theorem witness_HufDecodeOutputBound : (built [0x18]).TableIsSnapshot ∧ (built [0x18]).Ready ∧
    (built [0x18]).lutValid = true ∧
    after (exec (.hufDecode 1) (built [0x18])) (fun t => t.out == [0x61, 0x61]) = true :=
  ⟨built_snapshot _, rfl, rfl, by decide +kernel⟩
theorem witness_HuffmanFrame : (∃ t, exec .hufBuild (tiny [0x64]) = .next t) ∧
    after (exec .hufStep (tiny [0x64])) (fun t => t.out == [0x33]) = true ∧
    after (exec (.hufDecode 0) (tiny [0x64])) (fun t => t.hdone) = true := ⟨⟨_, rfl⟩, by decide +kernel, by decide +kernel⟩

theorem witness_ViDecRule_empty : (input []).Ready ∧ (input []).inLen ≤ (input []).ip := by decide
theorem witness_ViDecRule_short : (input [0x1e]).inBuf.drop (input [0x1e]).ip = 0x1e :: [] ∧
    (0x1e : Octet).toNat % 2 ^ (5 : BitVec 6).toNat < 2 ^ (5 : BitVec 6).toNat - 1 := by decide
theorem witness_ViDecRule_long : (0x1f : Octet).toNat % 2 ^ (5 : BitVec 6).toNat = 2 ^ (5 : BitVec 6).toNat - 1 ∧
    (∀ c ∈ [0xe0, 0xff, 0xff, 0xff, 0xff, 0xff, 0xff, 0xff], Octet.continues c = true) ∧ Octet.continues 0x3f = false ∧
    2 ^ (5 : BitVec 6).toNat - 1 + payload ([0xe0, 0xff, 0xff, 0xff, 0xff, 0xff, 0xff, 0xff] ++ [0x3f]) =
      2 ^ 62 - 1 := by decide
theorem witness_ViDecRule_overflow :
    (∀ c ∈ [0xe1, 0xff, 0xff, 0xff, 0xff, 0xff, 0xff, 0xff], Octet.continues c = true) ∧
    2 ^ (5 : BitVec 6).toNat - 1 + payload [0xe1, 0xff, 0xff, 0xff, 0xff, 0xff, 0xff, 0xff] ≤ 2 ^ 62 - 1 ∧
    2 ^ 62 - 1 < 2 ^ (5 : BitVec 6).toNat - 1 + payload ([0xe1, 0xff, 0xff, 0xff, 0xff, 0xff, 0xff, 0xff] ++ [0x3f]) := by
  decide
theorem witness_ViDecRule_truncated : (input [0xff, 0x9a]).inBuf.drop (input [0xff, 0x9a]).ip = 0xff :: [0x9a] ∧
    (∀ c ∈ [0x9a], Octet.continues c = true) ∧ 2 ^ (5 : BitVec 6).toNat - 1 + payload [0x9a] ≤ 2 ^ 62 - 1 := by decide
theorem witness_ViEncRule : State.reset.Ready ∧ (30 : Value).toNat < 2 ^ (5 : BitVec 6).toNat - 1 ∧
    2 ^ (5 : BitVec 6).toNat - 1 ≤ (31 : Value).toNat := by decide
theorem witness_varint_prefix_out_of_range : State.reset.Ready ∧ (2 : BitVec 6).toNat ≤ 2 ∧ 9 ≤ (9 : BitVec 6).toNat := by decide
theorem witness_VarintRoundTrip : (0xe0 : Octet).toNat % 2 ^ (5 : BitVec 6).toNat = 0 ∧ (input [0xff, 0x00]).Ready ∧
    (input [0xff, 0x00]).inBuf.drop (input [0xff, 0x00]).ip = [0xff, 0x00] ++ [] := by decide
theorem witness_DecodingNotInjective : (0x1f : Octet).toNat % 2 ^ (5 : BitVec 6).toNat = 2 ^ (5 : BitVec 6).toNat - 1 ∧
    (0xff : Octet).toNat % 2 ^ (5 : BitVec 6).toNat = 2 ^ (5 : BitVec 6).toNat - 1 ∧ Octet.continues 0x0a = false ∧
    2 ^ (5 : BitVec 6).toNat - 1 + payload ([0x9a] ++ [0x0a]) ≤ 2 ^ 62 - 1 ∧
    (input [0x1f, 0x9a, 0x0a]).inBuf.drop (input [0x1f, 0x9a, 0x0a]).ip = 0x1f :: ([0x9a] ++ 0x0a :: []) ∧
    (input [0xff, 0x9a, 0x8a, 0x80, 0x00]).inBuf.drop (input [0xff, 0x9a, 0x8a, 0x80, 0x00]).ip =
      0xff :: ([0x9a] ++ (0x0a ||| 0x80) :: (List.replicate 1 0x80 ++ 0x00 :: [])) := by decide
theorem witness_EncodedLength : (16415 : Value).toNat - (2 ^ (5 : BitVec 6).toNat - 1) < 128 ^ 3 ∧
    128 ^ (3 - 1) ≤ (16415 : Value).toNat - (2 ^ (5 : BitVec 6).toNat - 1) ∧
    (158 : Value).toNat - (2 ^ (5 : BitVec 6).toNat - 1) < 128 ^ 1 := by decide
theorem witness_VarintIgnoresCursorAndTable : (∃ t, exec (.viDec 5) (input [0x0a]) = .next t) ∧
    ∃ t, exec (.viEnc 5 0 10) (input [0x0a]) = .next t := ⟨⟨_, rfl⟩, ⟨_, rfl⟩⟩
theorem witness_VarintFrame : after (exec (.viDec 2) (input [0x0a])) (fun t => t.fault == some .illegalCommand) = true ∧
    after (exec (.viEnc 5 0 10) (input [0x0a])) (fun t => t.out == [0x0a]) = true := by decide +kernel
theorem witness_FaultCauses : after (exec .hufStep State.reset) (fun t => t.fault == some .lutNotBuilt) = true ∧
    after (exec (.bcShift 0) State.reset) (fun t => t.fault == some .illegalCommand) = true := by decide +kernel
theorem witness_StickyFault : faulted.fault = some .truncatedInput ∧
    (offering (.issue 0x20000000000000000000) faulted).pending = .issue 0x20000000000000000000 :: [.readOut] := ⟨rfl, rfl⟩
theorem witness_OutIsAppendOnly : ∃ t, step (offering (.issue 0x9140000000000000000a) State.reset) = .next t := ⟨_, rfl⟩
theorem witness_InputIsStable : (∃ t, exec (.viDec 5) (input [0x0a]) = .next t) ∧
    ∃ t, step (offering (.loadInput [1]) State.reset) = .next t := ⟨⟨_, rfl⟩, ⟨_, rfl⟩⟩
theorem witness_ResultWriters : after (exec (.viDec 5) (input [0x0a])) (fun t => t.result == 10) = true := by decide +kernel
theorem witness_CommandsAfterHardReset : (5 : Value) ≠ 0 ∧ 1 ≤ (1 : BitVec 6).toNat ∧ 3 ≤ (8 : BitVec 6).toNat := by decide

end Sys2Proof.Tests
end

section
/-! SUPPORT. What a recorded fault does to commands and host moves, and the bits of the window. -/
namespace Sys2Proof.Machine

/-! ### While a fault is recorded -/

/-- Every command is refused and changes nothing while `FAULT` is not 0 (R184). -/
theorem exec_faulted {s : State} {c : FaultCause} (h : s.fault = some c) (i : Instr) : exec i s = .next s := by
  cases i <;>
    simp only [exec, execBcLoad, execBcPeek, execBcShift, execBcRemain, execHufBuild, execHufStep, execHufDecode,
      execViDec, execViEnc, command_faulted h]

/-- A word, illegal ones included, is refused while `FAULT` is not 0 (R184). -/
theorem issueCommand_faulted {s : State} {c : FaultCause} (h : s.fault = some c) (w : CmdWord) :
    issueCommand w s = .next s := by
  rcases issueCommand_cases w s with ⟨i, _, hi⟩ | ⟨_, _, _, _, hr⟩ | ⟨_, _, hn, _⟩
  · rw [hi, exec_faulted h]
  · exact hr
  · simp [h] at hn

/-- A host move that is no reset leaves a recorded fault as it is, and a reset clears it (R40, R184). -/
theorem perform_faulted {s : State} {c : FaultCause} (h : s.fault = some c) (m : HostMove) :
    ∃ t, perform m s = .next t ∧ t.fault = if m.isReset then none else some c := by
  cases m with
  | hardReset => exact ⟨_, rfl, rfl⟩
  | softReset => exact ⟨_, rfl, rfl⟩
  | loadInput d => exact ⟨s, by simp [perform, h], h⟩
  | issue w => exact ⟨s, issueCommand_faulted h w, h⟩
  | readResult => exact ⟨_, rfl, h⟩
  | readStatus => exact ⟨_, rfl, h⟩
  | readOut => exact ⟨_, rfl, h⟩

/-! ### The window -/

/-- The window law, on the stream: `W[31 - j] = S[POS + j]` (R24). -/
theorem State.window_getLsbD (s : State) {j : Nat} (hj : j < 32) :
    s.window.getLsbD (31 - j) = s.streamBit (s.pos + j) := by
  have hlt : 31 - j < Config.winBits := Nat.lt_of_le_of_lt (Nat.sub_le 31 j) (by decide)
  have hidx : 31 - (31 - j) = j := by omega
  rw [State.window, BitVec.getLsbD_ofNat, natOfBits_testBit _ _ (by rwa [bitsFrom_length]), bitsFrom_getElem]
  simp [hlt, hidx]

/-- Every bit of the window after the first `RB` is 1 (R24). -/
theorem State.window_padding (s : State) {j : Nat} (hj : j < 32) (h : 8 * s.cl ≤ s.pos + j) :
    s.window.getLsbD (31 - j) = true := by
  rw [s.window_getLsbD hj, s.streamBit_padding h]

/-- The window is a function of `IN`, `CB`, `CL` and `RB` (R24). -/
theorem State.window_congr {s t : State} (hIn : t.inBuf = s.inBuf) (hCb : t.cb = s.cb) (hCl : t.cl = s.cl)
    (hRb : t.rb = s.rb) : t.window = s.window := by
  have hpos : t.pos = s.pos := by rw [State.pos, State.pos, hCl, hRb]
  rw [State.window, State.window, hpos, bitsFrom_congr (State.streamBit_congr hIn hCb hCl)]

/-- With no real bit left the window is all ones (R24). -/
theorem State.window_of_rb_eq_zero {s : State} (h : s.rb = 0) : s.window = 0xFFFFFFFF := by
  rw [show (0xFFFFFFFF : BitVec 32) = BitVec.allOnes 32 from rfl]
  refine BitVec.eq_of_getLsbD_eq fun i hi => ?_
  have hbit := s.window_padding (j := 31 - i) (by omega) (by rw [State.pos, h]; omega)
  rw [show 31 - (31 - i) = i by omega] at hbit
  rw [hbit, BitVec.getLsbD_allOnes, decide_eq_true hi]

end Sys2Proof.Machine
end

section
/-! The statements on the state's items: the two resets, the window law, the derived `VB`. -/
namespace Sys2Proof.Machine

/-- Settles O11. The reset states are as R40 writes them; for the third part, a step of a faulted state is either idle
or one host move, and of those only a reset changes `FAULT`. -/
theorem twoResets : Obligations.TwoResets := by
  refine ⟨fun s => ⟨rfl, rfl, rfl⟩, fun s => rfl, fun s t c hc hstep => ?_⟩
  rcases step_cases s with ⟨_, hidle⟩ | ⟨m, ms, hp, hm⟩
  · obtain rfl : s = t := by simpa [hidle] using hstep
    exact .inl hc
  · obtain ⟨u, hu, hfault⟩ := perform_faulted (s := s.withPending ms) hc m
    obtain rfl : u = t := by simpa [hm, hu] using hstep
    cases hr : m.isReset with
    | false => exact .inl (by simpa [hr] using hfault)
    | true => exact .inr ⟨m, ms, hp, hr, by simpa [hr] using hfault⟩

/-- Settles O17, from the window law on the stream: a real bit of the stream is a bit of an octet of `IN`, a later one
is 1. -/
theorem windowLaw : Obligations.WindowLaw := by
  refine ⟨fun s hin _ j hj => ⟨fun hreal => ?_, fun hpad => s.window_padding hj hpad⟩,
    fun s u hIn hCb hCl hRb => State.window_congr hIn hCb hCl hRb,
    fun s h => State.window_of_rb_eq_zero h, fun s hrb j hj => ?_⟩
  · rw [s.window_getLsbD hj]
    exact s.streamBit_real hin hreal
  · have hpad := s.window_padding (j := 31 - j) (by omega) (by rw [State.pos]; omega)
    rwa [show 31 - (31 - j) = j by omega] at hpad

/-- Settles O18: the minimum agrees with `RB` below 32, and the bit `POS + j` of the stream is real exactly when
`j < RB`. -/
theorem validBitsDerived : Obligations.ValidBitsDerived := by
  intro s
  have hvb : s.validBits = min s.rb 32 := rfl
  refine ⟨hvb, by omega, by omega, by omega, fun hrb j hj => ?_⟩
  have hreal : 8 * s.cl - s.rb + j < 8 * s.cl ↔ j < s.rb := by omega
  rw [hreal]
  omega

end Sys2Proof.Machine
end

section
/-! SUPPORT. The decoder and the encoder by the four fields of a word, and the rows of the opcode map field by field. -/
namespace Sys2Proof
open Sys2Proof.Laws

/-! ### The decoder by fields -/

/-- The word of an instruction has the fields of its row. -/
theorem fields_encode (i : Instr) : EncodeFields.Statement i := by
  cases i with
  | bcLoad len => exact EncodeFields.bcLoad len
  | bcPeek => exact EncodeFields.bcPeek
  | bcShift n => exact EncodeFields.bcShift n
  | bcRemain => exact EncodeFields.bcRemain
  | hufBuild => exact EncodeFields.hufBuild
  | hufStep => exact EncodeFields.hufStep
  | hufDecode len => exact EncodeFields.hufDecode len
  | viDec n => exact EncodeFields.viDec n
  | viEnc n f v => exact EncodeFields.viEnc n f v

/-- Two words agree when their four fields do. -/
theorem word_ext {w x : CmdWord} (hop : opOf w = opOf x) (hn : countOf w = countOf x) (hf : flagsOf w = flagsOf x)
    (hv : valueOf w = valueOf x) : w = x := by
  rw [← wordOf_fields w, ← wordOf_fields x, hop, hn, hf, hv]

/-- A word is the word of `i` exactly when it has the fields of `i`. -/
theorem encode_eq_iff {i : Instr} {w : CmdWord} :
    encode i = w ↔ (opOf w, countOf w, flagsOf w, valueOf w) = EncodeFields.fields i := by
  rw [← fields_encode i]
  constructor
  · rintro rfl
    rfl
  · intro h
    simp only [Prod.mk.injEq] at h
    obtain ⟨hop, hn, hf, hv⟩ := h
    exact (word_ext hop hn hf hv).symm

/-- The decoder answers `i` exactly for the words with the fields of `i`, its operands in range (R72). -/
theorem decode_eq_ok_iff {w : CmdWord} {i : Instr} :
    decode w = .ok i ↔ i.wf = true ∧ (opOf w, countOf w, flagsOf w, valueOf w) = EncodeFields.fields i := by
  constructor
  · intro h
    have hop : BitVec.ofNat 4 (opOf w).toNat = opOf w := by simp
    unfold decode at h
    split at h
    case h_10 => cases h
    all_goals
      rename_i hk
      obtain ⟨hu, hr, rfl⟩ := acceptIf_ok.1 h
      rw [hk] at hop
      simp_all [Instr.wf, EncodeFields.fields]
  · rintro ⟨hwf, hfields⟩
    cases i <;> simp_all [Instr.wf, EncodeFields.fields, decode, acceptIf]

/-- The decoder inverts the encoder on the well-formed instructions, and accepts no other word (R72). -/
theorem decode_eq_ok_iff_encode {w : CmdWord} {i : Instr} : decode w = .ok i ↔ i.wf = true ∧ encode i = w := by
  rw [decode_eq_ok_iff, encode_eq_iff]

/-! ### The rows of the opcode map by fields -/

@[simp] theorem opOf_and (w m : CmdWord) : opOf (w &&& m) = opOf w &&& opOf m := BitVec.extractLsb'_and
@[simp] theorem countOf_and (w m : CmdWord) : countOf (w &&& m) = countOf w &&& countOf m := BitVec.extractLsb'_and
@[simp] theorem flagsOf_and (w m : CmdWord) : flagsOf (w &&& m) = flagsOf w &&& flagsOf m := BitVec.extractLsb'_and
@[simp] theorem valueOf_and (w m : CmdWord) : valueOf (w &&& m) = valueOf w &&& valueOf m := BitVec.extractLsb'_and

/-- A row accepts a word when each field, masked, matches the row's and the count is in range (R72). -/
theorem OpRow.accepts_iff {r : OpRow} {w : CmdWord} : r.accepts w = true ↔
    (opOf w &&& opOf r.mask = opOf r.pattern ∧ countOf w &&& countOf r.mask = countOf r.pattern ∧
      flagsOf w &&& flagsOf r.mask = flagsOf r.pattern ∧ valueOf w &&& valueOf r.mask = valueOf r.pattern) ∧
    r.range.admits (countOf w) = true := by
  rw [OpRow.accepts, Bool.and_eq_true, beq_iff_eq, ← opOf_and, ← countOf_and, ← flagsOf_and, ← valueOf_and]
  refine and_congr_left fun _ => ⟨fun h => by simp only [h, and_self], ?_⟩
  rintro ⟨hop, hn, hf, hv⟩
  exact word_ext hop hn hf hv

/-- The opcode map with its masks and patterns cut into fields: a mask covers `op` and the fields the row's command does
not use (R70, R72). -/
theorem opcodeMap_eq_fields : opcodeMap =
    [⟨"BC_LOAD", wordOf 0xf 0x3f 0xff 0, wordOf 1 0 0 0, .any⟩,
     ⟨"BC_PEEK", wordOf 0xf 0x3f 0xff 0x3fffffffffffffff, wordOf 2 0 0 0, .any⟩,
     ⟨"BC_SHIFT", wordOf 0xf 0 0xff 0x3fffffffffffffff, wordOf 3 0 0 0, .shift⟩,
     ⟨"BC_REMAIN", wordOf 0xf 0x3f 0xff 0x3fffffffffffffff, wordOf 4 0 0 0, .any⟩,
     ⟨"HUF_BUILD", wordOf 0xf 0x3f 0xff 0x3fffffffffffffff, wordOf 5 0 0 0, .any⟩,
     ⟨"HUF_STEP", wordOf 0xf 0x3f 0xff 0x3fffffffffffffff, wordOf 6 0 0 0, .any⟩,
     ⟨"HUF_DECODE", wordOf 0xf 0x3f 0xff 0, wordOf 7 0 0 0, .any⟩,
     ⟨"VI_DEC", wordOf 0xf 0 0xff 0x3fffffffffffffff, wordOf 8 0 0 0, .prefixWidth⟩,
     ⟨"VI_ENC", wordOf 0xf 0 0 0, wordOf 9 0 0 0, .prefixWidth⟩] := by decide

/-! A mask of ones keeps the field it covers. -/

@[simp] theorem op_and_ones (op : BitVec 4) : op &&& 0xf#4 = op := BitVec.and_allOnes
@[simp] theorem count_and_ones (n : BitVec 6) : n &&& 0x3f#6 = n := BitVec.and_allOnes
@[simp] theorem flags_and_ones (f : Octet) : f &&& 0xff#8 = f := BitVec.and_allOnes
@[simp] theorem value_and_ones (v : Value) : v &&& 0x3fffffffffffffff#62 = v := BitVec.and_allOnes

/-- A word that a row accepts is the word of a well-formed instruction of the row's name (R72). -/
theorem exists_encode_of_accepts {r : OpRow} (hr : r ∈ opcodeMap) {w : CmdWord} (h : r.accepts w = true) :
    ∃ i, i.wf = true ∧ encode i = w ∧ i.mnemonic = r.mnemonic := by
  simp only [encode_eq_iff]
  rw [OpRow.accepts_iff] at h
  simp only [opcodeMap_eq_fields, List.mem_cons, List.not_mem_nil, or_false] at hr
  rcases hr with rfl | rfl | rfl | rfl | rfl | rfl | rfl | rfl | rfl <;> [
    exists .bcLoad (valueOf w); exists .bcPeek; exists .bcShift (countOf w); exists .bcRemain; exists .hufBuild;
    exists .hufStep; exists .hufDecode (valueOf w); exists .viDec (countOf w);
    exists .viEnc (countOf w) (flagsOf w) (valueOf w)]
  all_goals simp_all [EncodeFields.fields, CountRange.admits, Instr.wf, Instr.mnemonic]

/-- Every well-formed instruction's word is accepted by the row that bears its name (R72). -/
theorem exists_row_accepts_encode {i : Instr} (h : i.wf = true) :
    ∃ r ∈ opcodeMap, r.accepts (encode i) = true ∧ r.mnemonic = i.mnemonic := by
  cases i <;>
    simp_all [OpRow.accepts_iff, opcodeMap_eq_fields, encode, Instr.wf, Instr.mnemonic, CountRange.admits]

/-! ### The illegal words -/

/-- The counts `BC_SHIFT` does not take (R73 (c)). -/
theorem legalShift_eq_false_iff {n : BitVec 6} : legalShift n = false ↔ n.toNat = 0 ∨ 33 ≤ n.toNat := by
  simp only [legalShift, decide_eq_false_iff_not, Config.shiftMin, Config.shiftMax]
  omega

/-- The prefix widths the varint unit does not take (R73 (c)). -/
theorem legalPrefix_eq_false_iff {n : BitVec 6} : legalPrefix n = false ↔ n.toNat ≤ 2 ∨ 9 ≤ n.toNat := by
  simp only [legalPrefix, decide_eq_false_iff_not, Config.pfxMin, Config.pfxMax]
  omega

/-- `acceptIf` answers an error exactly when one of its two checks fails. -/
theorem exists_acceptIf_error_iff {u r : Bool} {i : Instr} :
    (∃ e, acceptIf u r i = .error e) ↔ u = false ∨ r = false := by
  cases u <;> cases r <;> simp [acceptIf]

end Sys2Proof
end

section
/-! The statements on the command word: the opcode map and the illegal words. -/
namespace Sys2Proof.Machine

/-- Settles O2. The words that decode are the words of the well-formed instructions, and so are the words that a row
accepts; the fields of such a word are the instruction's. -/
theorem decoderIsTheOpcodeMap : Obligations.DecoderIsTheOpcodeMap := by
  have hrow : ∀ w i, decode w = .ok i → ∃ r ∈ opcodeMap, r.accepts w = true ∧ r.mnemonic = i.mnemonic := by
    intro w i h
    obtain ⟨hwf, rfl⟩ := decode_eq_ok_iff_encode.1 h
    exact exists_row_accepts_encode hwf
  refine ⟨fun w => ⟨?_, ?_⟩, hrow, fun w i h => ?_⟩
  · rintro ⟨i, h⟩
    obtain ⟨r, hr, hacc, _⟩ := hrow w i h
    exact ⟨r, hr, hacc⟩
  · rintro ⟨r, hr, hacc⟩
    obtain ⟨i, hwf, henc, _⟩ := exists_encode_of_accepts hr hacc
    exact ⟨i, decode_eq_ok_iff_encode.2 ⟨hwf, henc⟩⟩
  · obtain ⟨_, rfl⟩ := decode_eq_ok_iff_encode.1 h
    cases i <;> simp [encode]

/-- Settles O6, a value of `op` at a time: a check of its row fails exactly when one of the listed conditions holds. -/
theorem illegalWords : Obligations.IllegalWords := by
  refine ⟨fun w => ?_, fun w s e he hready => ?_⟩
  · rw [decode]
    split
    case h_10 =>
      have hop : (opOf w).toNat = 0 ∨ 10 ≤ (opOf w).toNat := by grind
      simp [hop]
    all_goals
      rename_i hop
      rw [exists_acceptIf_error_iff, hop]
      simp [-Bool.and_eq_false_imp, Bool.and_eq_false_iff, legalShift_eq_false_iff, legalPrefix_eq_false_iff,
        or_assoc]
  · rw [issueCommand, he]
    exact command_illegal hready _

end Sys2Proof.Machine
end

section
/-! SUPPORT. The cursor: what a shift does to the window, the octets of the window, and what each cursor command answers
in a ready state. -/
namespace Sys2Proof.Machine

/-! ### Shifts and the window -/

/-- The bits of a peek are the first eight bits of the window (R101). -/
theorem State.peek_getLsbD (s : State) {j : Nat} (hj : j < 8) : s.peek.getLsbD (7 - j) = s.window.getLsbD (31 - j) := by
  rw [State.peek, BitVec.getLsbD_extractLsb', decide_eq_true (show 7 - j < 8 by omega), Bool.true_and,
    show 24 + (7 - j) = 31 - j by omega]

/-- Two shifts are one shift by the sum: the clamp at 0 does not lose count (R104). -/
theorem State.shift_shift (s : State) (a b : Nat) : (s.shift a).shift b = s.shift (a + b) := by
  simp only [State.shift, Nat.sub_sub]

/-- The stream as read after a shift is the stream `n` bits on: with `n` beyond the real bits, both are padding
(R101). -/
theorem State.streamBit_shift {s : State} (hrb : s.rb ≤ 8 * s.cl) (n j : Nat) :
    (s.shift n).streamBit ((s.shift n).pos + j) = s.streamBit (s.pos + n + j) := by
  rw [State.streamBit_congr (s := s) (t := s.shift n) rfl rfl rfl]
  have hpos : (s.shift n).pos = 8 * s.cl - (s.rb - n) := rfl
  have hpos' : s.pos = 8 * s.cl - s.rb := rfl
  by_cases hn : n ≤ s.rb
  · congr 1
    omega
  · rw [s.streamBit_padding (by omega), s.streamBit_padding (by omega)]

/-- A shift by all the real bits or more leaves none, and a window of ones (R101). -/
theorem State.shift_all {s : State} {n : Nat} (h : s.rb ≤ n) :
    (s.shift n).rb = 0 ∧ (s.shift n).window = 0xFFFFFFFF :=
  have hrb : (s.shift n).rb = 0 := Nat.sub_eq_zero_of_le h
  ⟨hrb, State.window_of_rb_eq_zero hrb⟩

/-! ### The octets of the window -/

/-- Bit `i` of the window's octet `j`, the uppermost octet first (R52, R53). -/
theorem State.window_octet_getLsbD (s : State) {i j : Nat} (hi : i < 8) (hj : j < 4) :
    (s.window.extractLsb' (24 - 8 * j) 8).getLsbD i = s.streamBit (s.pos + (8 * j + (7 - i))) := by
  rw [BitVec.getLsbD_extractLsb', decide_eq_true hi, Bool.true_and,
    show 24 - 8 * j + i = 31 - (8 * j + (7 - i)) by omega, s.window_getLsbD (by omega)]

/-- Before any shift, octet `j` of the window is octet `j` of the sequence where that exists (R53). -/
theorem State.window_octet_real {s : State} (hin : s.cb + s.cl ≤ s.inLen) (hpos : s.pos = 0) {j : Nat} (hj : j < 4)
    (hreal : j < s.cl) : s.readIn (s.cb + j) = some (s.window.extractLsb' (24 - 8 * j) 8) := by
  have hlt : s.cb + j < s.inBuf.length := by
    rw [State.inLen] at hin
    omega
  have hread : s.readIn (s.cb + j) = some s.inBuf[s.cb + j] := List.getElem?_eq_getElem hlt
  rw [hread]
  refine congrArg some (BitVec.eq_of_getLsbD_eq fun i hi => ?_)
  obtain ⟨o, ho, hbit⟩ := s.streamBit_real (k := 8 * j + (7 - i)) hin (by omega)
  rw [show (8 * j + (7 - i)) / 8 = j by omega, hread] at ho
  cases ho
  rw [s.window_octet_getLsbD hi hj, hpos, Nat.zero_add, hbit, show 7 - (8 * j + (7 - i)) % 8 = i by omega]

/-- An octet of the window that holds no real bit is `0xFF` (R53). -/
theorem State.window_octet_padding {s : State} {j : Nat} (hj : j < 4) (hpad : 8 * s.cl ≤ s.pos + 8 * j) :
    s.window.extractLsb' (24 - 8 * j) 8 = 0xFF := by
  rw [show (0xFF : BitVec 8) = BitVec.allOnes 8 from rfl]
  refine BitVec.eq_of_getLsbD_eq fun i hi => ?_
  rw [s.window_octet_getLsbD hi hj, s.streamBit_padding (by omega), BitVec.getLsbD_allOnes, decide_eq_true hi]

/-! ### What the cursor commands answer -/

variable {s : State}

/-- The counts `BC_SHIFT` takes (R73 (c)). -/
theorem legalShift_iff {n : BitVec 6} : legalShift n = true ↔ 1 ≤ n.toNat ∧ n.toNat ≤ 32 := decide_eq_true_iff

theorem exec_bcLoad_fits (h : s.Ready) {len : Value} (hfits : s.ip + len.toNat ≤ s.inLen) :
    exec (.bcLoad len) s = .next (s.loadCursor len.toNat) := by
  rw [exec, execBcLoad, command_legal h, if_pos ((s.sourceHas_iff _).2 hfits)]

theorem exec_bcLoad_truncated (h : s.Ready) {len : Value} (hshort : s.inLen < s.ip + len.toNat) :
    exec (.bcLoad len) s = .next (s.raise .truncatedInput) := by
  rw [exec, execBcLoad, command_legal h, if_neg (mt (s.sourceHas_iff _).1 (Nat.not_le.2 hshort))]

theorem exec_bcPeek_legal (h : s.Ready) (hcur : s.cursorLegal = true) :
    exec .bcPeek s = .next (s.setResult s.peek.toNat) := by
  rw [exec, execBcPeek, command_legal h, if_pos hcur]

theorem exec_bcPeek_outside (h : s.Ready) (hcur : s.cursorLegal = false) :
    exec .bcPeek s = .fault .cursorOutOfBounds := by
  rw [exec, execBcPeek, command_legal h, hcur, if_neg Bool.false_ne_true]

theorem exec_bcShift_legal (h : s.Ready) {n : BitVec 6} (hn : legalShift n = true) :
    exec (.bcShift n) s = .next (s.shift n.toNat) := by
  rw [exec, execBcShift, hn, command_legal h]

theorem exec_bcShift_illegal (h : s.Ready) {n : BitVec 6} (hn : legalShift n = false) :
    exec (.bcShift n) s = .next (s.raise .illegalCommand) := by
  rw [exec, execBcShift, hn, command_illegal h]

theorem exec_bcRemain (h : s.Ready) : exec .bcRemain s = .next (s.setResult s.rb) := by
  rw [exec, execBcRemain, command_legal h]

/-- The state with another lookup table, built or not. -/
def State.withTable (lut : Lut) (lutValid : Bool) (s : State) : State := { s with lut := lut, lutValid := lutValid }

/-- What a cursor command answers does not turn on the table, and leaves it alone (R106). -/
theorem exec_cursor_withTable {t : State} {i : Instr}
    (hi : i = .bcPeek ∨ i = .bcRemain ∨ (∃ n, i = .bcShift n) ∨ ∃ len, i = .bcLoad len) (ht : exec i s = .next t)
    (lut : Lut) (lutValid : Bool) : exec i (s.withTable lut lutValid) = .next (t.withTable lut lutValid) := by
  cases hfault : s.fault with
  | some c =>
    cases (exec_faulted hfault i).symm.trans ht
    exact exec_faulted (s := s.withTable lut lutValid) hfault i
  | none =>
    have hready : (s.withTable lut lutValid).Ready := hfault
    rcases hi with rfl | rfl | ⟨n, rfl⟩ | ⟨len, rfl⟩
    · cases hcur : s.cursorLegal with
      | true =>
        cases (exec_bcPeek_legal hfault hcur).symm.trans ht
        exact exec_bcPeek_legal hready hcur
      | false => cases (exec_bcPeek_outside hfault hcur).symm.trans ht
    · cases (exec_bcRemain hfault).symm.trans ht
      exact exec_bcRemain hready
    · cases hn : legalShift n with
      | true =>
        cases (exec_bcShift_legal hfault hn).symm.trans ht
        exact exec_bcShift_legal hready hn
      | false =>
        cases (exec_bcShift_illegal hfault hn).symm.trans ht
        exact exec_bcShift_illegal hready hn
    · rcases Nat.lt_or_ge s.inLen (s.ip + len.toNat) with hshort | hfits
      · cases (exec_bcLoad_truncated hfault hshort).symm.trans ht
        exact exec_bcLoad_truncated hready hshort
      · cases (exec_bcLoad_fits hfault hfits).symm.trans ht
        exact exec_bcLoad_fits hready hfits

/-- Under a conforming host the counter fits in the result register (R29). -/
theorem State.rb_lt_of_conforming (hinv : s.Inv) (hconf : s.Conforming) : s.rb < 2 ^ 62 := by
  have hmax := Config.inMax.isLt
  have hin := hconf.inputBounded
  have hcur := hinv.cursorInside
  have hrb := hinv.bitsInside
  omega

end Sys2Proof.Machine
end

section
/-! The statements on the bit cursor. -/
namespace Sys2Proof.Machine

/-- Settles O19, from the window law before and after the shift. -/
theorem peekAndShift : Obligations.PeekAndShift := by
  refine ⟨fun s => ⟨rfl, fun j hj => ?_⟩, fun s n _ _ => ?_, fun s n _ _ hrb j hj => ?_, fun s n h => State.shift_all h⟩
  · rw [s.peek_getLsbD hj, s.window_getLsbD (by omega)]
  · rw [State.shift]
    congr 1
    split <;> omega
  · rw [State.window_getLsbD _ hj, State.streamBit_shift hrb, Nat.add_right_comm]
    split
    · rw [s.window_getLsbD (by assumption), Nat.add_assoc]
    · rfl

/-- Settles O20. After the load `POS = 0`, so the window's octets are the sequence's first ones, then padding. -/
theorem bcLoadRule : Obligations.BcLoadRule := by
  refine fun s len hready => ⟨fun hfits => ⟨exec_bcLoad_fits hready hfits, fun t ht j hj => ?_⟩,
    exec_bcLoad_truncated hready⟩
  cases (exec_bcLoad_fits hready hfits).symm.trans ht
  have hpos : (s.loadCursor len.toNat).pos = 0 := Nat.sub_self _
  split
  next hreal => exact (State.window_octet_real hfits hpos hj hreal).symm
  next hpad =>
    rw [State.window_octet_padding hj]
    rw [State.loadCursor_cl]
    omega

/-- Settles O21. The result is the window's uppermost octet, whose padding bits are ones; `RESULT` is no part of what
a peek reads, so a second one finds the same. -/
theorem bcPeekRule : Obligations.BcPeekRule := by
  intro s hready hin hrb
  have hcur : s.cursorLegal = true := s.cursorLegal_iff.2 ⟨hin, hrb⟩
  have hres : zext62 s.peek.toNat = s.peek.setWidth 62 := BitVec.ofNat_toNat 62 s.peek
  have hpos : s.pos = 8 * s.cl - s.rb := rfl
  refine ⟨s.setResult s.peek.toNat, exec_bcPeek_legal hready hcur, ?_, fun j hj => ?_, fun h => ?_,
    exec_bcPeek_legal (s := s.setResult s.peek.toNat) hready hcur⟩
  · rw [State.setResult, hres, State.peek]
  · have hbit := s.peek_getLsbD (j := 7 - j) (by omega)
    rw [s.window_padding (by omega) (by omega), show 7 - (7 - j) = j by omega] at hbit
    rw [State.setResult_result, hres, BitVec.getLsbD_setWidth, hbit, decide_eq_true (by omega), Bool.and_true]
  · have hff : s.peek = 0xFF := s.window_octet_padding (j := 0) (by decide) (by omega)
    rw [State.setResult_result, hff]
    rfl

/-- Settles O22. A legal shift is `State.shift`; a count of 0 meets the window clause only when no real bit is left
already. -/
theorem bcShiftRule : Obligations.BcShiftRule := by
  intro s hready
  have hlegal {n : BitVec 6} (h1 : 1 ≤ n.toNat) (h32 : n.toNat ≤ 32) {u : State} (hu : u.Ready) :
      exec (.bcShift n) u = .next (u.shift n.toNat) := exec_bcShift_legal hu (legalShift_iff.2 ⟨h1, h32⟩)
  refine ⟨fun n h1 h32 => hlegal h1 h32 hready,
    fun n hn => exec_bcShift_illegal hready (legalShift_eq_false_iff.2 hn), fun n t hrb h32 ht => ?_,
    fun t hrb ht j hj => ?_, fun a b c ha hb hc h32 => ?_⟩
  · cases hn : legalShift n with
    | true =>
      cases (exec_bcShift_legal hready hn).symm.trans ht
      exact State.shift_all hrb
    | false =>
      cases (exec_bcShift_illegal hready hn).symm.trans ht
      have hzero : s.rb = 0 := by
        have := legalShift_eq_false_iff.1 hn
        omega
      exact ⟨hzero, State.window_of_rb_eq_zero hzero⟩
  · cases (exec_bcShift_legal hready (n := 32) (by decide)).symm.trans ht
    exact (State.window_getLsbD _ hj).trans (State.streamBit_shift hrb 32 j)
  · have hshift : (s.shift a.toNat).Ready := hready
    rw [hlegal ha (by omega) hready, hlegal (by omega) h32 hready, andThen, hlegal hb (by omega) hshift,
      State.shift_shift, hc]

/-- Settles O24. The first two parts read off what the commands answer; for the third, none of the answers mentions the
table. -/
theorem cursorCommandsNeverFault : Obligations.CursorCommandsNeverFault := by
  refine ⟨fun s i hready hin hrb hwf hi => ?_, fun s t len c hready ht hc => ?_,
    fun s t i lut lutValid hi ht => exec_cursor_withTable hi ht lut lutValid⟩
  · rcases hi with rfl | rfl | ⟨n, rfl⟩
    · exact ⟨_, exec_bcPeek_legal hready (s.cursorLegal_iff.2 ⟨hin, hrb⟩), hready⟩
    · exact ⟨_, exec_bcRemain hready, hready⟩
    · exact ⟨_, exec_bcShift_legal hready hwf, hready⟩
  · rcases Nat.lt_or_ge s.inLen (s.ip + len.toNat) with hshort | hfits
    · cases (exec_bcLoad_truncated hready hshort).symm.trans ht
      exact ⟨(Option.some.inj hc).symm, hshort⟩
    · cases (exec_bcLoad_fits hready hfits).symm.trans ht
      cases hready.symm.trans hc

/-- Settles O23: the value survives the 62 bits of `RESULT`, and under a conforming host it always fits. -/
theorem bcRemainRule : Obligations.BcRemainRule := by
  intro s hready
  have hvalue (h : s.rb < 2 ^ 62) : (zext62 s.rb).toNat = s.rb := Nat.mod_eq_of_lt h
  exact ⟨s.setResult s.rb, exec_bcRemain hready, rfl, hvalue,
    fun hinv hconf => hvalue (State.rb_lt_of_conforming hinv hconf)⟩

end Sys2Proof.Machine
end

section
/-! SUPPORT. What one iteration of the decode loop and one build answer, outcome by outcome (R123, R124). -/
namespace Sys2Proof.Machine

/-- A decode is under way: the table is built, nothing has stopped it, and the cursor names octets that exist. -/
structure State.Decoding (s : State) : Prop where
  built : s.lutValid = true
  running : s.hdone = false
  ready : s.fault = none
  cursor : s.cursorLegal = true

/-- The decode has stopped with nothing left and the root selected (R124). -/
def State.stopped (s : State) : State := { s with rb := 0, lp := 0, hdone := true }

/-! ### `HUF_STEP` -/

variable {s : State}

theorem exec_hufStep (h : s.Ready) : exec .hufStep s = decodeStep s := command_legal h _

theorem decodeStep_notBuilt (h : s.lutValid = false) : decodeStep s = .next (s.raise .lutNotBuilt) := by
  simp [decodeStep, h]

theorem decodeStep_done (hv : s.lutValid = true) (hd : s.hdone = true) : decodeStep s = .next s := by
  simp [decodeStep, hv, hd]

theorem decodeStep_exhausted (hv : s.lutValid = true) (hd : s.hdone = false) (hr : s.rb = 0) :
    decodeStep s = .next s.stopDecode := by
  simp [decodeStep, hv, hd, hr]

/-- With a real bit left the entry that the peek finds decides. -/
theorem State.Decoding.step_leaf (h : s.Decoding) (hr : 0 < s.rb) {sym : Fin 257} {extra : Fin 8}
    (he : s.lut.entry? s.lp s.peek.toNat = some (.leaf sym extra)) : decodeStep s = takeLeaf sym (extra.val + 1) s := by
  simp [decodeStep, h.built, h.running, h.cursor, hr.ne', he]

theorem State.Decoding.step_branch (h : s.Decoding) (hr : 0 < s.rb) {m : Nat}
    (he : s.lut.entry? s.lp s.peek.toNat = some (.branch m)) : decodeStep s = takeBranch m s := by
  simp [decodeStep, h.built, h.running, h.cursor, hr.ne', he]

theorem State.Decoding.step_empty (h : s.Decoding) (hr : 0 < s.rb)
    (he : s.lut.entry? s.lp s.peek.toNat = some .empty) : decodeStep s = .next (s.raise .lutMiss) := by
  simp [decodeStep, h.built, h.running, h.cursor, hr.ne', he]

theorem takeLeaf_eos (n : Nat) : takeLeaf Config.eos n s = .next (s.raise .huffEos) := if_pos rfl

theorem takeLeaf_symbol {sym : Fin 257} (h : sym ≠ Config.eos) (n : Nat) :
    takeLeaf sym n s = .next (((s.emit [BitVec.ofNat 8 sym.val]).shift n).setLp 0) := if_neg h

theorem takeBranch_last (h : s.rb < 8) (m : Nat) : takeBranch m s = .next s.stopped := by
  rw [takeBranch, if_pos h, State.shift, Nat.sub_self]
  rfl

theorem takeBranch_descend (h : 8 ≤ s.rb) (m : Nat) : takeBranch m s = .next ((s.shift 8).setLp m) :=
  if_neg (Nat.not_lt.2 h)

/-! ### `HUF_BUILD` -/

variable {codes : CodeTable} {t : Lut}

theorem exec_hufBuild (h : s.Ready) : exec .hufBuild s = .next (buildLut Config.huffCodes s) :=
  command_legal h fun s => .next (buildLut Config.huffCodes s)

theorem buildLut_valid (hv : s.lutValid = true) : buildLut codes s = s := if_pos hv

theorem buildLut_ok (hv : s.lutValid = false) (h : build codes = .ok t) :
    buildLut codes s = (s.setLut t).markBuilt := by
  simp [buildLut, hv, h]

theorem buildLut_error (hv : s.lutValid = false) (h : build codes = .error t) :
    buildLut codes s = (s.setLut t).raise .buildCollision := by
  simp [buildLut, hv, h]

/-- A build whose table passes a decidable check has finished. -/
theorem exists_build_ok {codes : CodeTable} {P : Lut → Prop} [DecidablePred P]
    (h : (build codes).toOption.any (fun t => decide (P t)) = true) : ∃ t, build codes = .ok t ∧ P t := by
  cases hb : build codes with
  | error t => simp [hb, Except.toOption] at h
  | ok t => exact ⟨t, rfl, by simpa [hb, Except.toOption] using h⟩

end Sys2Proof.Machine
end

section
/-! The statements on the supplied table, the build and one iteration of the decode loop. -/
namespace Sys2Proof.Machine

/-- Settles O29: the kernel builds the table once and reads every listed entry off it. -/
theorem suppliedTable : Obligations.SuppliedTable := exists_build_ok (by decide +kernel)

/-- Settles O30: the outcomes of `buildLut`; with the supplied codes the build finishes, as `suppliedTable` says. -/
theorem hufBuildRule : Obligations.HufBuildRule := by
  obtain ⟨t, ht, _⟩ := suppliedTable
  refine ⟨⟨t, ht, fun s hready hv => ?_⟩, fun s hready hv => ?_,
    fun codes s t hv => ⟨buildLut_ok hv, buildLut_error hv⟩⟩
  · rw [exec_hufBuild hready, buildLut_ok hv ht]
    rfl
  · rw [exec_hufBuild hready, buildLut_valid hv]

/-- Settles O34: each clause is one arm of the iteration; the window's top octet is the peek. -/
theorem hufStepRule : Obligations.HufStepRule := by
  intro s hready
  rw [exec_hufStep hready]
  refine ⟨decodeStep_notBuilt, decodeStep_done, decodeStep_exhausted, fun hv hd hr hin hrb => ?_⟩
  have h : s.Decoding := ⟨hv, hd, hready, s.cursorLegal_iff.2 ⟨hin, hrb⟩⟩
  refine ⟨fun sym extra he hsym => ?_, fun extra he => ?_, fun m he h8 => ?_, fun m he h8 => ?_, h.step_empty hr⟩
  · rw [h.step_leaf hr he, takeLeaf_symbol hsym]
    rfl
  · exact (h.step_leaf hr he).trans (takeLeaf_eos _)
  · exact (h.step_branch hr he).trans (takeBranch_last h8 m)
  · rw [h.step_branch hr he, takeBranch_descend h8]
    rfl

end Sys2Proof.Machine
end

section
/-! SUPPORT. Where a finished build puts a code: the runs of leaves, the entries that stay, and the way from a layer
along a code to its leaf (R120, R121). -/
namespace Sys2Proof.Machine

/-! ### Entries of a changed table -/

theorem Lut.entry?_eq_getD (t : Lut) (l i : Nat) : t.entry? l i = (t.getD l [])[i]? := by
  rw [Lut.entry?, List.getD_eq_getElem?_getD]
  cases t[l]? <;> simp

/-- An entry that exists lies in an allocated layer. -/
theorem Lut.lt_length_of_entry? {t : Lut} {l i : Nat} {e : Entry} (h : t.entry? l i = some e) : l < t.length := by
  by_contra hl
  simp [Lut.entry?, List.getElem?_eq_none (Nat.not_lt.1 hl)] at h

theorem Lut.entry?_set_self {t : Lut} {l : Nat} (hl : l < t.length) (x : Layer) (i : Nat) :
    Lut.entry? (t.set l x) l i = x[i]? := by
  simp [Lut.entry?, List.getElem?_set_self hl]

theorem Lut.entry?_set_ne {t : Lut} {l k : Nat} (h : l ≠ k) (x : Layer) (i : Nat) :
    Lut.entry? (t.set l x) k i = t.entry? k i := by
  simp [Lut.entry?, List.getElem?_set_ne h]

theorem Lut.entry?_append {t : Lut} {l : Nat} (hl : l < t.length) (u : Lut) (i : Nat) :
    Lut.entry? (t ++ u) l i = t.entry? l i := by
  simp [Lut.entry?, List.getElem?_append_left hl]

/-! ### A build keeps what it has placed -/

/-- Every entry of `t` that is not `Empty` stands in `u` too. -/
def Lut.Extends (u t : Lut) : Prop := ∀ l i e, t.entry? l i = some e → e ≠ .empty → u.entry? l i = some e

theorem Lut.Extends.refl (t : Lut) : t.Extends t := fun _ _ _ h _ => h

theorem Lut.Extends.trans {t u v : Lut} (h : v.Extends u) (h' : u.Extends t) : v.Extends t :=
  fun l i e he hne => h l i e (h' l i e he hne) hne

/-- From layer `l` the bits `b` lead to the leaves of `sym`: `Branch` entries along whole octets, then, in the layer of
the last bits, a leaf at every index that begins with them (R120, R121). -/
inductive Lut.LeadsTo (t : Lut) (sym : Fin 257) : (l : Nat) → (b : List Bool) → Prop where
  | leaf (l : Nat) (b : List Bool) (hne : b ≠ []) (hlen : b.length ≤ 8)
      (h : ∀ i : List Bool, i.length = 8 → b <+: i →
        t.entry? l (natOfBits i) = some (.leaf sym (Fin.ofNat 8 (b.length - 1)))) : LeadsTo t sym l b
  | branch (l m : Nat) (i b : List Bool) (hne : b ≠ []) (hlen : i.length = 8)
      (h : t.entry? l (natOfBits i) = some (.branch m)) (hb : LeadsTo t sym m b) : LeadsTo t sym l (i ++ b)

theorem Lut.LeadsTo.mono {t u : Lut} (hu : u.Extends t) {sym : Fin 257} {l : Nat} {b : List Bool}
    (h : t.LeadsTo sym l b) : u.LeadsTo sym l b := by
  induction h with
  | leaf l b hne hlen h => exact .leaf l b hne hlen fun i hi hb => hu _ _ _ (h i hi hb) Entry.noConfusion
  | branch l m i b hne hlen h _ ih => exact .branch l m i b hne hlen (hu _ _ _ h Entry.noConfusion) ih

/-! ### Placing one code -/

/-- A run that meets no collision found its entries `Empty` and wrote them, and left the others (R121). -/
theorem fillLoop_getElem? {e : Entry} {n i : Nat} {l : Layer} (h : (fillLoop e n i l).2 = true) (k : Nat) :
    if i ≤ k ∧ k < i + n then l[k]? = some .empty ∧ (fillLoop e n i l).1[k]? = some e
    else (fillLoop e n i l).1[k]? = l[k]? := by
  induction n generalizing i l with
  | zero => simp [fillLoop, show ¬(i ≤ k ∧ k < i) by omega]
  | succ n ih =>
    rw [fillLoop] at h ⊢
    split at h
    case isFalse => cases h
    next hfree =>
      have hlt : i < l.length := (List.getElem?_eq_some_iff.1 hfree).1
      have hset := ih h
      rw [if_pos hfree]
      rcases Nat.lt_trichotomy k i with hk | rfl | hk
      · simpa [show ¬ i ≤ k by omega, show ¬ i + 1 ≤ k by omega, List.getElem?_set_ne hk.ne'] using hset
      · simpa [hfree, List.getElem?_set_self hlt] using hset
      · rw [List.getElem?_set_ne hk.ne] at hset
        simpa only [show (i ≤ k ∧ k < i + (n + 1)) ↔ (i + 1 ≤ k ∧ k < i + 1 + n) by omega] using hset

/-- Indices that begin with the bits `b` are those of the run of `b`'s leaves (R121). -/
theorem natOfBits_mem_run {b i : List Bool} (hi : i.length = 8) (hb : b <+: i) :
    natOfBits b <<< (8 - b.length) ≤ natOfBits i ∧
      natOfBits i < natOfBits b <<< (8 - b.length) + 2 ^ (8 - b.length) := by
  obtain ⟨x, rfl⟩ := hb
  have hx : 8 - b.length = x.length := by rw [List.length_append] at hi; omega
  rw [natOfBits_append, Nat.shiftLeft_eq, hx]
  exact ⟨Nat.le_add_right _ _, Nat.add_lt_add_left (natOfBits_lt x) _⟩

theorem placeLeaf_ok {t u : Lut} {l : Nat} {sym : Fin 257} {b : List Bool} (h : placeLeaf t l sym b = .ok u)
    (hne : b ≠ []) (hlen : b.length ≤ 8) : u.Extends t ∧ u.LeadsTo sym l b := by
  rw [placeLeaf, fillRun_eq_fillLoop] at h
  split at h
  case isFalse => cases h
  next hdone =>
    cases h
    have hrun := fillLoop_getElem? hdone
    have hl : l < t.length := by
      have hfirst := hrun (natOfBits b <<< (8 - b.length))
      rw [if_pos ⟨le_rfl, Nat.lt_add_of_pos_right (Nat.two_pow_pos _)⟩, ← Lut.entry?_eq_getD] at hfirst
      exact Lut.lt_length_of_entry? hfirst.1
    refine ⟨fun k i e he hempty => ?_, .leaf l b hne hlen fun i hi hb => ?_⟩
    · by_cases hk : l = k
      · subst hk
        have hi := hrun i
        rw [← Lut.entry?_eq_getD, he] at hi
        rw [Lut.entry?_set_self hl]
        split at hi
        · simp [hempty] at hi
        · exact hi
      · rwa [Lut.entry?_set_ne hk]
    · rw [Lut.entry?_set_self hl]
      have hi' := hrun (natOfBits i)
      rw [if_pos (natOfBits_mem_run hi hb)] at hi'
      exact hi'.2

/-- Hanging a fresh layer under an `Empty` entry changes that entry only. -/
theorem Lut.extends_grow {t : Lut} {l i : Nat} (h : t.entry? l i = some .empty) (m : Nat) :
    Lut.Extends (t.set l ((t.getD l []).set i (.branch m)) ++ [Layer.fresh]) t ∧
      Lut.entry? (t.set l ((t.getD l []).set i (.branch m)) ++ [Layer.fresh]) l i = some (.branch m) := by
  have hl := Lut.lt_length_of_entry? h
  rw [Lut.entry?_eq_getD] at h
  have hi : i < (t.getD l []).length := (List.getElem?_eq_some_iff.1 h).1
  refine ⟨fun k j e he hempty => ?_, ?_⟩
  · have hk := Lut.lt_length_of_entry? he
    rw [Lut.entry?_append (by simpa using hk)]
    by_cases hlk : l = k
    · subst hlk
      rw [Lut.entry?_set_self hl]
      rw [Lut.entry?_eq_getD] at he
      have hij : i ≠ j := by
        rintro rfl
        exact hempty (Option.some.inj (he.symm.trans h))
      rwa [List.getElem?_set_ne hij]
    · rwa [Lut.entry?_set_ne hlk]
  · rw [Lut.entry?_append (by simpa using hl), Lut.entry?_set_self hl, List.getElem?_set_self hi]

/-- A code placed without a collision leads to its leaves, and everything placed before stays (R121). -/
theorem place_ok {sym : Fin 257} {fuel l : Nat} {b : List Bool} {t u : Lut} (h : place sym fuel l b t = .ok u)
    (hne : b ≠ []) (hfuel : b.length ≤ fuel) : u.Extends t ∧ u.LeadsTo sym l b := by
  induction fuel generalizing l b t with
  | zero => exact absurd (List.eq_nil_of_length_eq_zero (Nat.le_zero.1 hfuel)) hne
  | succ fuel ih =>
    rw [place] at h
    split at h
    next hlen => exact placeLeaf_ok h hne hlen
    next hlen =>
      have hlong : 8 < b.length := Nat.not_le.1 hlen
      have htake : (b.take 8).length = 8 := List.length_take_of_le hlong.le
      have hdrop : b.drop 8 ≠ [] := by simpa [List.drop_eq_nil_iff] using hlong
      have hrest : (b.drop 8).length ≤ fuel := by rw [List.length_drop]; omega
      have below {v : Lut} {m : Nat} (hv : v.Extends t) (hm : v.entry? l (natOfBits (b.take 8)) = some (.branch m))
          (h : place sym fuel m (b.drop 8) v = .ok u) : u.Extends t ∧ u.LeadsTo sym l b := by
        obtain ⟨hext, hlead⟩ := ih h hdrop hrest
        refine ⟨hext.trans hv, ?_⟩
        rw [← List.take_append_drop 8 b]
        exact .branch l m _ _ hdrop htake (hext _ _ _ hm Entry.noConfusion) hlead
      dsimp only at h
      split at h
      next m hm => exact below (.refl t) hm h
      next hempty =>
        obtain ⟨hgrow, hnew⟩ := Lut.extends_grow hempty t.length
        exact below hgrow hnew h
      next => cases h
      next => cases h

theorem placeAll_ok {codes : CodeTable} {t u : Lut} (hcodes : CodeTable.NonEmpty codes)
    (h : placeAll codes t = .ok u) : u.Extends t ∧ ∀ c ∈ codes, u.LeadsTo c.sym 0 c.pattern := by
  induction codes generalizing t with
  | nil =>
    cases h
    exact ⟨.refl _, by simp⟩
  | cons c cs ih =>
    rw [placeAll] at h
    split at h
    next v hv =>
      have hne : c.pattern ≠ [] :=
        List.ne_nil_of_length_pos (c.pattern_length ▸ hcodes c List.mem_cons_self)
      obtain ⟨hext, hlead⟩ := place_ok hv hne c.pattern_length.le
      obtain ⟨hext', hleads⟩ := ih (fun c' hc' => hcodes c' (List.mem_cons_of_mem c hc')) h
      exact ⟨hext'.trans hext, List.forall_mem_cons.2 ⟨hlead.mono hext', hleads⟩⟩
    next => cases h

/-- In a finished table every code leads from the root to the leaves of its symbol (R120). -/
theorem build_leadsTo {codes : CodeTable} {t : Lut} (hcodes : CodeTable.NonEmpty codes) (h : build codes = .ok t)
    {c : HuffCode} (hc : c ∈ codes) : t.LeadsTo c.sym 0 c.pattern :=
  (placeAll_ok hcodes h).2 c hc

end Sys2Proof.Machine
end

section
/-! SUPPORT. The real bits of the cursor as a list: what a peek and a shift make of them, and the bits of octets. -/
namespace Sys2Proof

theorem bitsOfNat_getElem (len v i : Nat) (h : i < (bitsOfNat len v).length) :
    (bitsOfNat len v)[i] = v.testBit (len - 1 - i) := by
  induction len generalizing i with
  | zero => simp at h
  | succ n ih =>
    cases i with
    | zero => simp [bitsOfNat]
    | succ i =>
      simp only [bitsOfNat, List.getElem_cons_succ, ih]
      congr 1
      omega

/-- A string read as a number and written out again. -/
theorem bitsOfNat_natOfBits (b : List Bool) : bitsOfNat b.length (natOfBits b) = b := by
  refine List.ext_getElem (bitsOfNat_length _ _) fun i hi hi' => ?_
  rw [bitsOfNat_getElem, natOfBits_testBit b _ (by omega)]
  congr 1
  omega

end Sys2Proof

namespace Sys2Proof.Machine

/-! ### Octets and their bits -/

@[simp] theorem bitsOfOctets_cons (o : Octet) (os : List Octet) :
    bitsOfOctets (o :: os) = bitsOfNat 8 o.toNat ++ bitsOfOctets os := rfl

@[simp] theorem bitsOfOctets_length (os : List Octet) : (bitsOfOctets os).length = 8 * os.length := by
  induction os with
  | nil => rfl
  | cons o os ih =>
    rw [bitsOfOctets_cons, List.length_append, bitsOfNat_length, ih, List.length_cons]
    omega

/-- Bit `k` of a list of octets is bit `7 - k % 8` of octet `k / 8` (R52). -/
theorem bitsOfOctets_getElem (os : List Octet) (k : Nat) (h : k < (bitsOfOctets os).length) (h' : k / 8 < os.length) :
    (bitsOfOctets os)[k] = os[k / 8].getLsbD (7 - k % 8) := by
  induction os generalizing k with
  | nil => simp at h'
  | cons o os ih =>
    simp only [bitsOfOctets_cons]
    by_cases hk : k < 8
    · rw [List.getElem_append_left (by simpa using hk), bitsOfNat_getElem]
      simp [Nat.div_eq_of_lt hk, Nat.mod_eq_of_lt hk, BitVec.getLsbD]
    · have hdiv : k / 8 = (k - 8) / 8 + 1 := by omega
      have hmod : k % 8 = (k - 8) % 8 := by omega
      rw [List.getElem_append_right (by simpa using hk)]
      simp only [bitsOfNat_length, hdiv, hmod, List.getElem_cons_succ]
      exact ih (k - 8) _ _

theorem packOctet_toNat {b : List Bool} (h : b.length = 8) : (BitVec.ofNat 8 (natOfBits b)).toNat = natOfBits b :=
  Nat.mod_eq_of_lt (h ▸ natOfBits_lt b)

/-- Cutting whole octets off a string keeps its bits (R77). -/
theorem bitsOfOctets_packOctets {n : Nat} {b : List Bool} (h : b.length = 8 * n) :
    bitsOfOctets (packOctets n b) = b := by
  induction n generalizing b with
  | zero => simpa [packOctets, bitsOfOctets, eq_comm] using h
  | succ n ih =>
    have htake : (b.take 8).length = 8 := List.length_take_of_le (by omega)
    have hbits := bitsOfNat_natOfBits (b.take 8)
    rw [htake] at hbits
    rw [packOctets, bitsOfOctets_cons, packOctet_toNat htake, hbits, ih (by rw [List.length_drop]; omega),
      List.take_append_drop]

/-- The bits of a Huffman coding: the patterns and up to 7 ones (R77). -/
theorem bitsOfOctets_huffCoding (codes : CodeTable) (ss : List Octet) : ∃ k ≤ 7,
    bitsOfOctets (huffCoding codes ss) =
      (ss.flatMap fun o => CodeTable.patternOf codes o.toNat) ++ List.replicate k true := by
  rw [huffCoding]
  generalize (ss.flatMap fun o => CodeTable.patternOf codes o.toNat) = b
  refine ⟨(8 - b.length % 8) % 8, by omega, bitsOfOctets_packOctets ?_⟩
  rw [List.length_append, List.length_replicate]
  omega

/-- Fewer ones begin more ones. -/
theorem replicate_prefix_replicate {m n : Nat} (h : m ≤ n) : List.replicate m true <+: List.replicate n true :=
  ⟨List.replicate (n - m) true, by rw [← List.replicate_add, Nat.add_sub_cancel' h]⟩

/-- Whole octets at the head of a string come off both sides. -/
theorem prefix_drop_of_append_prefix {i b x y : List Bool} (h : i ++ b <+: x ++ y) (hlen : i.length ≤ x.length) :
    b <+: x.drop i.length ++ y := by
  have hdrop := h.drop i.length
  rwa [List.drop_left, List.drop_append_of_le_length hlen] at hdrop

/-! ### The real bits -/

variable {s : State}

/-- The bits of the cursor's sequence that are not yet consumed, `RB` of them (R23). -/
def State.realBits (s : State) : List Bool := bitsFrom s.streamBit s.pos s.rb

@[simp] theorem State.realBits_length : s.realBits.length = s.rb := bitsFrom_length _ _ _

@[simp] theorem State.realBits_emit (os : List Octet) : (s.emit os).realBits = s.realBits := rfl

@[simp] theorem State.realBits_setLp (l : Nat) : (s.setLp l).realBits = s.realBits := rfl

theorem State.realBits_shift (h : s.rb ≤ 8 * s.cl) (n : Nat) : (s.shift n).realBits = s.realBits.drop n := by
  refine List.ext_getElem (by simp) fun i _ _ => ?_
  simp only [State.realBits, bitsFrom_getElem, List.getElem_drop, State.streamBit_shift h, Nat.add_assoc]

/-- The peek reads the next 8 of the real bits, filled up with ones (R23, R101). -/
theorem State.peek_toNat (h : s.rb ≤ 8 * s.cl) {i : List Bool} (hi : i.length = 8)
    (hpre : i <+: s.realBits ++ List.replicate 8 true) : s.peek.toNat = natOfBits i := by
  refine Nat.eq_of_testBit_eq fun j => ?_
  by_cases hj : j < 8
  · have hbit : s.peek.toNat.testBit j = s.streamBit (s.pos + (7 - j)) := by
      have := s.peek_getLsbD (j := 7 - j) (by omega)
      rwa [s.window_getLsbD (by omega), show 7 - (7 - j) = j by omega] at this
    have hidx : i.length - 1 - j = 7 - j := by omega
    rw [hbit, natOfBits_testBit i j (by omega), hpre.getElem, List.getElem_append]
    simp only [hidx]
    split
    · simp only [State.realBits, bitsFrom_getElem]
    next hpad =>
      rw [List.getElem_replicate, s.streamBit_padding]
      rw [State.realBits_length] at hpad
      rw [State.pos]
      omega
  · have hle : 2 ^ 8 ≤ 2 ^ j := Nat.pow_le_pow_right (by decide) (Nat.not_lt.1 hj)
    rw [Nat.testBit_lt_two_pow (s.peek.isLt.trans_le hle),
      Nat.testBit_lt_two_pow ((hi ▸ natOfBits_lt i).trans_le hle)]

/-- After the load the real bits are those of the octets loaded (R102). -/
theorem State.realBits_loadCursor {d rest : List Octet} (h : s.inBuf.drop s.ip = d ++ rest) :
    (s.loadCursor d.length).realBits = bitsOfOctets d := by
  refine List.ext_getElem (by simp) fun k hk hk' => ?_
  have hlt : k < 8 * d.length := by simpa using hk
  have hoct : k / 8 < d.length := by omega
  have hread : s.inBuf[s.ip + k / 8]? = some d[k / 8] := by
    rw [← List.getElem?_drop, h, List.getElem?_append_left hoct, List.getElem?_eq_getElem hoct]
  have hpos : (s.loadCursor d.length).pos = 0 := Nat.sub_self _
  simp only [State.realBits, bitsFrom_getElem, bitsOfOctets_getElem d k hk' hoct, hpos, Nat.zero_add]
  simp [State.streamBit, hlt, State.readIn, hread]

end Sys2Proof.Machine
end


section
/-! SUPPORT. The decode loop on a code: the way down to its leaf, the symbol it yields, and the data that ends on the
way (R124, R126, R128). -/
namespace Sys2Proof.Machine

variable {s t : State} {r : Result}

/-! ### The loop, whatever its fuel -/

/-- The decode loop answers `r` from `s` with any fuel that is more than the real bits (R126). -/
def State.DecodesTo (s : State) (r : Result) : Prop := ∀ fuel, s.rb < fuel → decodeLoop fuel s = r

theorem decodeLoop_succ (h : s.Decoding) (hstep : decodeStep s = .next t) (fuel : Nat) :
    decodeLoop (fuel + 1) s = decodeLoop fuel t := by
  simp [decodeLoop, h.running, h.ready, hstep]

/-- An iteration that takes a real bit goes on with the state it leaves. -/
theorem State.Decoding.decodesTo_of_step (h : s.Decoding) (hstep : decodeStep s = .next t) (hrb : t.rb < s.rb)
    (ht : t.DecodesTo r) : s.DecodesTo r
  | 0, hfuel => absurd hfuel (Nat.not_lt_zero _)
  | fuel + 1, hfuel => (decodeLoop_succ h hstep fuel).trans (ht fuel (by omega))

/-- An iteration that sets `HDONE` or raises is the last. -/
theorem State.Decoding.decodesTo_of_last (h : s.Decoding) (hstep : decodeStep s = .next t)
    (hend : t.hdone = true ∨ t.fault ≠ none) : s.DecodesTo (.next t)
  | 0, hfuel => absurd hfuel (Nat.not_lt_zero _)
  | fuel + 1, _ => (decodeLoop_succ h hstep fuel).trans (decodeLoop_ended hend fuel)

/-- `HUF_DECODE` with the table built and octets enough is the loop on the loaded cursor (R125). -/
theorem exec_hufDecode (hready : s.Ready) (hbuilt : s.lutValid = true) {len : Value}
    (hfits : s.ip + len.toNat ≤ s.inLen) (h : (s.loadCursor len.toNat).DecodesTo r) :
    exec (.hufDecode len) s = r := by
  rw [exec, execHufDecode, command_legal hready, if_pos hbuilt, if_pos ((s.sourceHas_iff _).2 hfits)]
  exact h _ (Nat.lt_succ_self _)

/-! ### A decode goes on through its updates -/

theorem State.Decoding.bits_le (h : s.Decoding) : s.rb ≤ 8 * s.cl := (s.cursorLegal_iff.1 h.cursor).2

theorem State.Decoding.shift (h : s.Decoding) (n : Nat) : (s.shift n).Decoding :=
  have ⟨hin, hrb⟩ := s.cursorLegal_iff.1 h.cursor
  ⟨h.built, h.running, h.ready, (s.shift n).cursorLegal_iff.2 ⟨hin, (Nat.sub_le _ _).trans hrb⟩⟩

theorem State.Decoding.setLp (h : s.Decoding) (l : Nat) : (s.setLp l).Decoding :=
  ⟨h.built, h.running, h.ready, h.cursor⟩

theorem State.Decoding.emit (h : s.Decoding) (os : List Octet) : (s.emit os).Decoding :=
  ⟨h.built, h.running, h.ready, h.cursor⟩

theorem State.Decoding.loadCursor (hready : s.Ready) (hbuilt : s.lutValid = true) {len : Nat}
    (hfits : s.ip + len ≤ s.inLen) : (s.loadCursor len).Decoding :=
  ⟨hbuilt, rfl, hready, (s.loadCursor len).cursorLegal_iff.2 ⟨hfits, le_rfl⟩⟩

/-! ### Down the branches -/

/-- A taken `Branch`: with 8 real bits or more, the loop goes on a layer deeper. -/
theorem State.Decoding.decodesTo_of_branch (h : s.Decoding) (h8 : 8 ≤ s.rb) {m : Nat}
    (he : s.lut.entry? s.lp s.peek.toNat = some (.branch m)) (ht : ((s.shift 8).setLp m).DecodesTo r) :
    s.DecodesTo r :=
  h.decodesTo_of_step ((h.step_branch (by omega) he).trans (takeBranch_descend h8 m))
    (Nat.sub_lt (by omega) (by decide)) ht

/-- The layers above the last one of a code of `n` bits: one for every 8 bits before the last 1 to 8 (R79). -/
def layersAbove (n : Nat) : Nat := (n - 1) / 8

/-- With a real bit left in its last layer, the loop goes down the branches of a code and finds its leaf there
(R124, R127). -/
theorem Lut.LeadsTo.reaches_leaf {sym : Fin 257} {l : Nat} {b : List Bool} (hb : s.lut.LeadsTo sym l b)
    (hs : s.Decoding) (hl : s.lp = l) (hpre : b <+: s.realBits ++ List.replicate 8 true)
    (hreal : 8 * layersAbove b.length < s.rb) :
    ∃ (u : State) (m : Nat) (extra : Fin 8), u = (s.shift (8 * layersAbove b.length)).setLp m ∧
      s.lut.walk l (packOctets (layersAbove b.length) b) = some m ∧
      u.lut.entry? u.lp u.peek.toNat = some (.leaf sym extra) ∧
      8 * layersAbove b.length + (extra.val + 1) = b.length ∧ ∀ r, u.DecodesTo r → s.DecodesTo r := by
  generalize ht : s.lut = t at hb
  induction hb generalizing s with
  | leaf l b hne hlen h =>
    have hpos : 0 < b.length := List.length_pos_iff.2 hne
    have habove : layersAbove b.length = 0 := Nat.div_eq_of_lt (by omega)
    obtain ⟨i, hi⟩ : ∃ i, i = (s.realBits ++ List.replicate 8 true).take 8 := ⟨_, rfl⟩
    have hi8 : i.length = 8 := by simp [hi]
    have hbi : b <+: i := List.prefix_of_prefix_length_le hpre (hi ▸ List.take_prefix _ _) (by omega)
    refine ⟨s, l, Fin.ofNat 8 (b.length - 1), ?_, ?_, ?_, ?_, fun _ => id⟩
    · rw [habove, ← hl]
      rfl
    · rw [habove]
      rfl
    · rw [ht, hl, State.peek_toNat hs.bits_le hi8 (hi ▸ List.take_prefix _ _)]
      exact h i hi8 hbi
    · simp only [habove, Fin.ofNat]
      omega
  | branch l m i b hne hlen h hb ih =>
    have hpos : 0 < b.length := List.length_pos_iff.2 hne
    have habove : layersAbove (i ++ b).length = layersAbove b.length + 1 := by
      simp only [layersAbove, List.length_append, hlen]
      omega
    rw [habove] at hreal
    have h8 : 8 ≤ s.rb := by omega
    have hpeek := State.peek_toNat hs.bits_le hlen ((List.prefix_append i b).trans hpre)
    have he : s.lut.entry? s.lp s.peek.toNat = some (.branch m) := by rw [ht, hl, hpeek, h]
    have hrest := prefix_drop_of_append_prefix hpre (by simpa [hlen] using h8)
    rw [hlen, ← State.realBits_shift hs.bits_le] at hrest
    obtain ⟨u, m', extra, hu, hwalk, hleaf, hcount, hdec⟩ := ih (s := (s.shift 8).setLp m) ((hs.shift 8).setLp m)
      rfl hrest (by simp only [State.setLp_rb, State.shift_rb]; omega) ht
    refine ⟨u, m', extra, ?_, ?_, hleaf, ?_, fun r hr => hs.decodesTo_of_branch h8 he (hdec r hr)⟩
    · rw [hu, habove, show 8 * (layersAbove b.length + 1) = 8 + 8 * layersAbove b.length by omega,
        ← State.shift_shift]
      rfl
    · rw [habove, packOctets, List.take_left' hlen, List.drop_left' hlen, Lut.walk, packOctet_toNat hlen, h]
      exact hwalk
    · rw [habove, List.length_append, hlen]
      omega

/-- A code of an octet, the bits of its last layer real or virtual, yields the octet (R124, R128 (b)). -/
theorem Lut.LeadsTo.decodesTo_symbol {sym : Fin 257} {b : List Bool} (hb : s.lut.LeadsTo sym 0 b)
    (hsym : sym ≠ Config.eos) (hs : s.Decoding) (hl : s.lp = 0) (hpre : b <+: s.realBits ++ List.replicate 8 true)
    (hreal : 8 * layersAbove b.length < s.rb)
    (hnext : (((s.emit [BitVec.ofNat 8 sym.val]).shift b.length).setLp 0).DecodesTo r) : s.DecodesTo r := by
  obtain ⟨u, m, extra, rfl, -, hleaf, hcount, hdec⟩ := hb.reaches_leaf hs hl hpre hreal
  have hu := (hs.shift (8 * layersAbove b.length)).setLp m
  have hleft : 0 < s.rb - 8 * layersAbove b.length := by omega
  refine hdec r (hu.decodesTo_of_step ((hu.step_leaf hleft hleaf).trans (takeLeaf_symbol hsym _))
    (Nat.sub_lt hleft (by omega)) ?_)
  rw [← hcount, ← State.shift_shift] at hnext
  exact hnext

/-- The EOS code raises `HuffEos` in its last layer, with the real bits of the layers above consumed (R124 (d)). -/
theorem Lut.LeadsTo.decodesTo_eos {b : List Bool} (hb : s.lut.LeadsTo Config.eos 0 b) (hs : s.Decoding) (hl : s.lp = 0)
    (hpre : b <+: s.realBits ++ List.replicate 8 true) (hreal : 8 * layersAbove b.length < s.rb) {m : Nat}
    (hwalk : s.lut.walk 0 (packOctets (layersAbove b.length) b) = some m) :
    s.DecodesTo (.next (((s.shift (8 * layersAbove b.length)).setLp m).raise .huffEos)) := by
  obtain ⟨u, m', extra, rfl, hm, hleaf, -, hdec⟩ := hb.reaches_leaf hs hl hpre hreal
  obtain rfl : m' = m := Option.some.inj (hm.symm.trans hwalk)
  have hu := (hs.shift (8 * layersAbove b.length)).setLp m'
  exact hdec _ (hu.decodesTo_of_last ((hu.step_leaf (Nat.sub_pos_of_lt hreal) hleaf).trans (takeLeaf_eos _))
    (.inr (Option.some_ne_none _)))

/-! ### Data that ends inside a code -/

/-- With no real bit left the decode stops (R124 (a)). -/
theorem State.Decoding.decodesTo_exhausted (h : s.Decoding) (hr : s.rb = 0) : s.DecodesTo (.next s.stopped) := by
  have hstop : s.stopDecode = s.stopped := by simp [State.stopDecode, State.stopped, hr]
  exact hstop ▸ h.decodesTo_of_last (decodeStep_exhausted h.built h.running hr) (.inl rfl)

/-- Real bits that, filled up with ones to whole octets, are a proper beginning of a code are consumed and dropped
(R124 (c), R128 (a), (d)). -/
theorem Lut.LeadsTo.decodesTo_dropped {sym : Fin 257} {l : Nat} {b : List Bool} (hb : s.lut.LeadsTo sym l b)
    (hs : s.Decoding) (hl : s.lp = l) {j : Nat} (hj : j < 8) (hpre : s.realBits ++ List.replicate j true <+: b)
    (hwhole : 8 ∣ s.rb + j) (hproper : s.rb + j < b.length) : s.DecodesTo (.next s.stopped) := by
  generalize ht : s.lut = t at hb
  induction hb generalizing s with
  | leaf l b hne hlen h => exact hs.decodesTo_exhausted (by omega)
  | branch l m i b hne hlen h hb ih =>
    rcases Nat.eq_zero_or_pos s.rb with hr | hr
    · exact hs.decodesTo_exhausted hr
    have hi : i <+: s.realBits ++ List.replicate j true := by
      refine List.prefix_of_prefix_length_le (List.prefix_append i b) hpre ?_
      rw [hlen, List.length_append, State.realBits_length, List.length_replicate]
      omega
    have hpad := (List.prefix_append_right_inj s.realBits).2 (replicate_prefix_replicate hj.le)
    have he : s.lut.entry? s.lp s.peek.toNat = some (.branch m) := by
      rw [ht, hl, State.peek_toNat hs.bits_le hlen (hi.trans hpad), h]
    rcases Nat.lt_or_ge s.rb 8 with hr8 | hr8
    · exact hs.decodesTo_of_last ((hs.step_branch hr he).trans (takeBranch_last hr8 m)) (.inl rfl)
    · have hrest : (s.shift 8).realBits ++ List.replicate j true <+: b := by
        have hdrop := hpre.drop 8
        rwa [List.drop_left' hlen, List.drop_append_of_le_length (by simpa using hr8),
          ← State.realBits_shift hs.bits_le] at hdrop
      rw [List.length_append, hlen] at hproper
      have hleft : ((s.shift 8).setLp m).rb = s.rb - 8 := rfl
      exact hs.decodesTo_of_branch hr8 he
        (ih ((hs.shift 8).setLp m) rfl hrest (by rw [hleft]; omega) (by rw [hleft]; omega) ht)

end Sys2Proof.Machine
end


section
/-! SUPPORT. The supplied codes in the finished table, and a decode that has read whole patterns. -/
namespace Sys2Proof.Machine

variable {s : State} {r : Result}

/-! ### The supplied codes (R171) -/

theorem huffCodes_nonEmpty : CodeTable.NonEmpty Config.huffCodes := by decide +kernel

theorem huffCodes_syms : Config.huffCodes.map (fun c => c.sym.val) = List.range 257 := by decide +kernel

/-- The row of EOS: 30 ones (R171 P5). -/
theorem eosCode_mem : (⟨Config.eos, 0x3fffffff, 30⟩ : HuffCode) ∈ Config.huffCodes := by decide +kernel

theorem eosCode_pattern : (⟨Config.eos, 0x3fffffff, 30⟩ : HuffCode).pattern = List.replicate 30 true := by decide

/-- Every octet has a row, and its pattern is that row's (R171 P1). -/
theorem exists_huffCode (o : Octet) : ∃ c ∈ Config.huffCodes, c.sym.val = o.toNat ∧
    CodeTable.patternOf Config.huffCodes o.toNat = c.pattern := by
  have hmem : o.toNat ∈ Config.huffCodes.map fun c => c.sym.val := by
    rw [huffCodes_syms, List.mem_range]
    omega
  obtain ⟨c₀, hc₀, hsym₀⟩ := List.mem_map.1 hmem
  obtain ⟨c, hc⟩ := Option.isSome_iff_exists.1
    (List.find?_isSome (p := fun c => c.sym.val == o.toNat).2 ⟨c₀, hc₀, beq_iff_eq.2 hsym₀⟩)
  exact ⟨c, List.mem_of_find?_eq_some hc, by simpa using List.find?_some hc, by rw [CodeTable.patternOf, hc]⟩

/-- The branches of EOS end in layer 4 (R122). -/
theorem walk_eosCode {t : Lut} (h : build Config.huffCodes = .ok t) :
    t.walk 0 (packOctets (layersAbove 30) (List.replicate 30 true)) = some 4 := by
  obtain ⟨u, hu, -, -, -, -, hwalk, -⟩ := suppliedTable
  obtain rfl : u = t := Except.ok.inj (hu.symm.trans h)
  exact hwalk ([0xff, 0xff, 0xff], 4) (by simp)

/-! ### Whole patterns -/

/-- The octets `os` have been decoded, `n` real bits are left, and the next lookup is at the root. -/
def State.decoded (os : List Octet) (n : Nat) (s : State) : State := { s with out := s.out ++ os, rb := n, lp := 0 }

theorem State.Decoding.decoded (h : s.Decoding) (os : List Octet) {n : Nat} (hn : n ≤ s.rb) :
    (s.decoded os n).Decoding :=
  have ⟨hin, hrb⟩ := s.cursorLegal_iff.1 h.cursor
  ⟨h.built, h.running, h.ready, (s.decoded os n).cursorLegal_iff.2 ⟨hin, hn.trans hrb⟩⟩

theorem State.realBits_decoded (h : s.rb ≤ 8 * s.cl) (os : List Octet) {b tail : List Bool}
    (hbits : s.realBits = b ++ tail) : (s.decoded os tail.length).realBits = tail := by
  have hrb : s.rb = b.length + tail.length := by rw [← State.realBits_length, hbits, List.length_append]
  have hshift : (s.decoded os tail.length).realBits = (s.shift b.length).realBits := by
    rw [State.realBits, State.realBits, State.shift_rb, show s.rb - b.length = tail.length by omega]
    rw [show s.shift b.length = { s with rb := tail.length } by rw [State.shift, hrb, Nat.add_sub_cancel_left]]
    rfl
  rw [hshift, State.realBits_shift h, hbits, List.drop_left]

/-- The pattern of an octet at the root yields the octet, its last bits real or virtual (R124, R128 (b)). -/
theorem decodesTo_octet (ht : build Config.huffCodes = .ok s.lut) (hs : s.Decoding) (hl : s.lp = 0) {o : Octet}
    {b : List Bool} (hb : CodeTable.patternOf Config.huffCodes o.toNat = b)
    (hpre : b <+: s.realBits ++ List.replicate 8 true) (hreal : 8 * layersAbove b.length < s.rb)
    (hnext : (s.decoded [o] (s.rb - b.length)).DecodesTo r) : s.DecodesTo r := by
  obtain ⟨c, hc, hsym, hpat⟩ := exists_huffCode o
  obtain rfl : c.pattern = b := hpat.symm.trans hb
  have heos : c.sym ≠ Config.eos := by
    intro h
    rw [h] at hsym
    exact absurd o.isLt (by rw [← hsym]; decide)
  refine (build_leadsTo huffCodes_nonEmpty ht hc).decodesTo_symbol heos hs hl hpre hreal ?_
  rw [hsym, BitVec.ofNat_toNat, BitVec.setWidth_eq]
  exact hnext

/-- Whole patterns at the head of the real bits are decoded one after another (R127). -/
theorem decodesTo_octets (ht : build Config.huffCodes = .ok s.lut) (hs : s.Decoding) (hl : s.lp = 0)
    {ss : List Octet} {tail : List Bool}
    (hbits : s.realBits = (ss.flatMap fun o => CodeTable.patternOf Config.huffCodes o.toNat) ++ tail)
    (hnext : (s.decoded ss tail.length).DecodesTo r) : s.DecodesTo r := by
  induction ss generalizing s with
  | nil =>
    have hrb : s.rb = tail.length := by rw [← State.realBits_length, hbits]; rfl
    have hsame : s.decoded [] tail.length = s := by rw [State.decoded, List.append_nil, ← hrb, ← hl]
    exact hsame ▸ hnext
  | cons o ss ih =>
    obtain ⟨c, hc, -, hpat⟩ := exists_huffCode o
    have hpos : 0 < c.pattern.length := c.pattern_length ▸ huffCodes_nonEmpty c hc
    rw [List.flatMap_cons, hpat, List.append_assoc] at hbits
    have hrb := congrArg List.length hbits
    rw [State.realBits_length, List.length_append] at hrb
    refine decodesTo_octet ht hs hl hpat (hbits ▸ (List.prefix_append _ _).trans (List.prefix_append _ _))
      (by rw [layersAbove]; omega) ?_
    rw [hrb, Nat.add_sub_cancel_left]
    refine ih ht (hs.decoded [o] (by omega)) rfl (State.realBits_decoded hs.bits_le [o] hbits) ?_
    have hsame (n : Nat) : (s.decoded [o] n).decoded ss tail.length = s.decoded (o :: ss) tail.length := by
      simp [State.decoded]
    rw [hsame]
    exact hnext

/-! ### The tail at the root -/

/-- A tail that ends inside a supplied code is dropped (R128 (a), (d)). -/
theorem decodesTo_tail_dropped (ht : build Config.huffCodes = .ok s.lut) (hs : s.Decoding) (hl : s.lp = 0)
    {c : HuffCode} (hc : c ∈ Config.huffCodes) {j : Nat} (hj : j < 8)
    (hpre : s.realBits ++ List.replicate j true <+: c.pattern) (hwhole : 8 ∣ s.rb + j)
    (hproper : s.rb + j < c.pattern.length) : s.DecodesTo (.next s.stopped) :=
  (build_leadsTo huffCodes_nonEmpty ht hc).decodesTo_dropped hs hl hj hpre hwhole hproper

/-- A tail that virtual ones complete to an octet's pattern yields the octet, and then nothing is left (R128 (b)). -/
theorem decodesTo_tail_completed (ht : build Config.huffCodes = .ok s.lut) (hs : s.Decoding) (hl : s.lp = 0)
    {o : Octet} {j : Nat} (ho : CodeTable.patternOf Config.huffCodes o.toNat = s.realBits ++ List.replicate j true)
    (hreal : 8 * layersAbove (s.rb + j) < s.rb) : s.DecodesTo (.next (s.decoded [o] 0).stopped) := by
  have hlength : (s.realBits ++ List.replicate j true).length = s.rb + j := by simp
  have hj : j ≤ 8 := by
    rw [layersAbove] at hreal
    omega
  refine decodesTo_octet ht hs hl ho ((List.prefix_append_right_inj _).2 (replicate_prefix_replicate hj))
    (by rwa [hlength]) ?_
  rw [hlength, Nat.sub_eq_zero_of_le (Nat.le_add_right _ _)]
  exact (hs.decoded [o] (Nat.zero_le _)).decodesTo_exhausted rfl

/-- A tail of at most 24 ones ends inside EOS (R128 (c)). -/
theorem decodesTo_ones_dropped (ht : build Config.huffCodes = .ok s.lut) (hs : s.Decoding) (hl : s.lp = 0)
    (hones : s.realBits = List.replicate s.rb true) (h24 : s.rb ≤ 24) : s.DecodesTo (.next s.stopped) := by
  have hpre : s.realBits ++ List.replicate ((8 - s.rb % 8) % 8) true <+: List.replicate 30 true := by
    rw [hones, ← List.replicate_add]
    exact replicate_prefix_replicate (by omega)
  exact decodesTo_tail_dropped ht hs hl eosCode_mem (Nat.mod_lt _ (by decide)) (eosCode_pattern ▸ hpre) (by omega)
    (by rw [eosCode_pattern, List.length_replicate]; omega)

/-- A tail of at least 25 ones holds a real bit of the last layer of EOS, which is layer 4 (R128 (c)). -/
theorem decodesTo_ones_eos (ht : build Config.huffCodes = .ok s.lut) (hs : s.Decoding) (hl : s.lp = 0)
    (hones : s.realBits = List.replicate s.rb true) (h25 : 25 ≤ s.rb) :
    s.DecodesTo (.next (((s.shift 24).setLp 4).raise .huffEos)) := by
  have hpre : List.replicate 30 true <+: s.realBits ++ List.replicate 8 true := by
    rw [hones, ← List.replicate_add]
    exact replicate_prefix_replicate (by omega)
  have heos := build_leadsTo huffCodes_nonEmpty ht eosCode_mem
  rw [eosCode_pattern] at heos
  exact heos.decodesTo_eos hs hl hpre h25 (walk_eosCode ht)

/-! ### The whole command -/

/-- A `HUF_DECODE` over whole patterns and a tail comes to a state in which the patterns' octets are decoded and the
tail is what is left, and answers what the loop answers from there (R127, R128). -/
theorem exec_hufDecode_octets {len : Value} {ss d rest : List Octet} {tail : List Bool}
    (hsnap : s.TableIsSnapshot) (hready : s.Ready) (hbuilt : s.lutValid = true) (hip : s.ip ≤ s.inLen)
    (hsource : s.inBuf.drop s.ip = d ++ rest) (hlen : len.toNat = d.length)
    (hbits : bitsOfOctets d = (ss.flatMap fun o => CodeTable.patternOf Config.huffCodes o.toNat) ++ tail) :
    ∃ u, u = (s.loadCursor len.toNat).decoded ss tail.length ∧ u.Decoding ∧ u.realBits = tail ∧
      build Config.huffCodes = .ok u.lut ∧ ∀ r, u.DecodesTo r → exec (.hufDecode len) s = r := by
  have hfits : s.ip + len.toNat ≤ s.inLen := by
    have hcount := congrArg List.length hsource
    rw [List.length_drop, List.length_append] at hcount
    rw [State.inLen] at hip ⊢
    omega
  have hs := State.Decoding.loadCursor hready hbuilt hfits
  have hreal : (s.loadCursor len.toNat).realBits = bitsOfOctets d := hlen ▸ State.realBits_loadCursor hsource
  rw [hbits] at hreal
  have hrb := congrArg List.length hreal
  rw [State.realBits_length, List.length_append] at hrb
  exact ⟨_, rfl, hs.decoded ss (by omega), State.realBits_decoded hs.bits_le ss hreal, hsnap hbuilt,
    fun r hr => exec_hufDecode hready hbuilt hfits (decodesTo_octets (hsnap hbuilt) hs rfl hreal hr)⟩

end Sys2Proof.Machine
end

section
/-! The statements on what `HUF_DECODE` makes of coded strings. -/
namespace Sys2Proof.Machine

/-- Settles O57. The whole patterns are decoded first; the tail then ends inside a code, or completes one with virtual
ones, or is made of ones, which are the beginning of EOS up to 24 of them and reach into its last layer beyond. -/
theorem lenientDecoding : Obligations.LenientDecoding := by
  intro s len ss d rest tail hsnap hready hbuilt hip hsource hlen hbits
  obtain ⟨u, hu, hdec, htail, ht, hexec⟩ := exec_hufDecode_octets hsnap hready hbuilt hip hsource hlen hbits
  have hl : u.lp = 0 := by rw [hu]; rfl
  have hrb : tail.length = u.rb := by rw [hu]; rfl
  have hstopped : u.stopped = { s with
      cb := s.ip, cl := len.toNat, ip := s.ip + len.toNat, out := s.out ++ ss, rb := 0, lp := 0, hdone := true } := by
    rw [hu]; rfl
  rw [hrb, ← htail, ← hstopped]
  refine ⟨fun c hc j hj hpre hwhole hproper => hexec _ (decodesTo_tail_dropped ht hdec hl hc hj hpre hwhole hproper),
    fun o j ho _ hreal => ?_, fun k hk => ?_⟩
  · rw [hexec _ (decodesTo_tail_completed ht hdec hl ho hreal), hu]
    rfl
  · obtain rfl : u.rb = k := by rw [← State.realBits_length, hk, List.length_replicate]
    refine ⟨fun h24 => hexec _ (decodesTo_ones_dropped ht hdec hl hk h24), fun h25 => ?_⟩
    rw [hexec _ (decodesTo_ones_eos ht hdec hl hk h25), hu]
    rfl

/-- Settles O40: the coding's bits are the patterns and up to 7 ones, a tail that the lenient decoder drops. -/
theorem hufDecodeWellFormed : Obligations.HufDecodeWellFormed := by
  intro s len ss rest hsnap hready hbuilt hsource hlen hip
  obtain ⟨k, hk, hbits⟩ := bitsOfOctets_huffCoding Config.huffCodes ss
  obtain ⟨-, -, hones⟩ := lenientDecoding s len ss _ rest _ hsnap hready hbuilt hip hsource hlen hbits
  obtain ⟨hdropped, -⟩ := hones k rfl
  exact hdropped (by omega)

end Sys2Proof.Machine
end

section
/-! SUPPORT. `VI_DEC`: prefixes and payloads, the decoding loop over octets that say another one follows, and what the
command answers, outcome by outcome (R81, R151). -/
namespace Sys2Proof.Machine

/-! ### Prefixes and octets -/

/-- The prefix widths the varint unit takes (R73 (c)). -/
theorem legalPrefix_iff {n : BitVec 6} : legalPrefix n = true ↔ 3 ≤ n.toNat ∧ n.toNat ≤ 8 := decide_eq_true_iff

theorem prefixMask_lt (n : BitVec 6) : prefixMask n < 2 ^ n.toNat := Nat.sub_one_lt (Nat.two_pow_pos _).ne'

theorem two_pow_le_of_legalPrefix {n : BitVec 6} (hn : legalPrefix n = true) : 2 ^ n.toNat ≤ 2 ^ 8 :=
  Nat.pow_le_pow_right two_pos (legalPrefix_iff.1 hn).2

/-- OR-ed into flags that are clear in the prefix, a value is the prefix (R152, R154). -/
theorem octet_or_mod_prefix {n : BitVec 6} (hn : legalPrefix n = true) {flags : Octet}
    (hflags : flags.toNat % 2 ^ n.toNat = 0) {v : Nat} (hv : v < 2 ^ n.toNat) :
    (flags ||| BitVec.ofNat 8 v).toNat % 2 ^ n.toNat = v := by
  have hv8 : v < 2 ^ 8 := hv.trans_le (two_pow_le_of_legalPrefix hn)
  rw [BitVec.toNat_or, BitVec.toNat_ofNat, Nat.mod_eq_of_lt hv8, Nat.or_mod_two_pow, hflags, Nat.zero_or,
    Nat.mod_eq_of_lt hv]

/-- Setting bit 7 says that another octet follows (R81). -/
theorem octet_or_80_continues (c : Octet) : Octet.continues (c ||| 0x80) = true := by
  rw [Octet.continues, BitVec.getLsbD_or, show (0x80 : Octet).getLsbD 7 = true from rfl, Bool.or_true]

/-- Setting bit 7 leaves the payload of an octet as it is (R81). -/
theorem octet_or_80_mod (c : Octet) : (c ||| 0x80).toNat % 128 = c.toNat % 128 := by
  have h := Nat.or_mod_two_pow (a := c.toNat) (b := 0x80) (n := 7)
  simpa using h

theorem ofNat_or_80 (v : Nat) : BitVec.ofNat 8 (v ||| 0x80) = BitVec.ofNat 8 v ||| (0x80 : Octet) := BitVec.ofNat_or

/-- The payload of one octet more, at the end (R81). -/
theorem payload_concat (cs : List Octet) (c : Octet) :
    payload (cs ++ [c]) = payload cs + c.toNat % 128 * 2 ^ (7 * cs.length) := by
  rw [payload_append, payload_cons, payload_nil, Nat.mul_zero, Nat.add_zero, Nat.mul_comm]

/-- Zero groups have no payload (R155). -/
theorem payload_replicate_80 (k : Nat) : payload (List.replicate k 0x80 ++ [0]) = 0 := by
  induction k with
  | zero => rfl
  | succ k ih => rw [List.replicate_succ, List.cons_append, payload_cons, ih]; rfl

/-- The octets `init` and `last`, bit 7 of `last` set, and `k` zero groups: one more octet terminates them (R155). -/
def withZeroGroups (init : List Octet) (last : Octet) (k : Nat) : List Octet :=
  init ++ (last ||| 0x80) :: List.replicate k 0x80

theorem withZeroGroups_continues {init : List Octet} (h : ∀ c ∈ init, Octet.continues c = true) (last : Octet)
    (k : Nat) : ∀ c ∈ withZeroGroups init last k, Octet.continues c = true := by
  simp only [withZeroGroups, List.forall_mem_append, List.forall_mem_cons, List.forall_mem_replicate]
  exact ⟨h, octet_or_80_continues last, .inr rfl⟩

/-- Zero groups add nothing to the payload (R155). -/
theorem payload_withZeroGroups (init : List Octet) (last : Octet) (k : Nat) :
    payload (withZeroGroups init last k ++ [0]) = payload (init ++ [last]) := by
  rw [withZeroGroups, List.append_assoc, List.cons_append, payload_append, payload_append, payload_cons, payload_cons,
    payload_nil, payload_replicate_80, octet_or_80_mod]

/-! ### The loop of `VI_DEC` -/

theorem State.advance_advance (s : State) (a b : Nat) : (s.advance a).advance b = s.advance (a + b) := by
  simp only [State.advance, Nat.add_assoc]

/-- Past the last octet of the source `IP` is `IN_LEN` (R27). -/
theorem State.inLen_eq_of_source {s : State} {o : Octet} {rest : List Octet} (h : s.source = o :: rest) :
    s.inLen = s.ip + (1 + rest.length) := by
  have hcount := congrArg List.length h
  rw [State.source, List.length_drop, List.length_cons] at hcount
  rw [State.inLen]
  omega

/-- One octet of the loop, the octets `cs` having been read: what it answers turns on the sum so far and on bit 7
(R151). -/
theorem decodeContinuation_cons (m : Nat) (cs : List Octet) (c : Octet) (rest : List Octet) (s : State) :
    decodeContinuation (c :: rest) cs.length (m + payload cs) s =
      if m + payload (cs ++ [c]) ≤ 2 ^ 62 - 1 then
        if Octet.continues c then decodeContinuation rest (cs ++ [c]).length (m + payload (cs ++ [c])) (s.advance 1)
        else .next ((s.advance 1).setResult (m + payload (cs ++ [c])))
      else .next ((s.advance 1).raise .varintOverflow) := by
  rw [decodeContinuation, octet_and_7f, Nat.shiftLeft_eq, Nat.add_assoc, ← payload_concat, List.length_append]
  rfl

/-- The loop goes past octets that say another one follows, as long as the sum fits (R151). -/
theorem decodeContinuation_append {m : Nat} {init : List Octet} (hinit : ∀ c ∈ init, Octet.continues c = true)
    (hsum : m + payload init ≤ 2 ^ 62 - 1) (tail : List Octet) (s : State) :
    decodeContinuation (init ++ tail) 0 m s =
      decodeContinuation tail init.length (m + payload init) (s.advance init.length) := by
  induction init using List.reverseRecOn generalizing tail with
  | nil => rfl
  | append_singleton cs c ih =>
    rw [List.forall_mem_append, List.forall_mem_singleton] at hinit
    obtain ⟨hcs, hc⟩ := hinit
    have hle : payload cs ≤ payload (cs ++ [c]) := payload_concat cs c ▸ Nat.le_add_right _ _
    rw [List.append_assoc, ih hcs (by omega), List.singleton_append, decodeContinuation_cons, if_pos hsum, if_pos hc,
      State.advance_advance, List.length_append, List.length_singleton]

/-! ### What `VI_DEC` answers -/

variable {s : State} {n : BitVec 6}

theorem exec_viDec_legal (h : s.Ready) (hn : legalPrefix n = true) :
    exec (.viDec n) s = decodeVarint (prefixMask n) s := by
  rw [exec, execViDec, hn, command_legal h]

theorem exec_viDec_illegal (h : s.Ready) (hn : legalPrefix n = false) :
    exec (.viDec n) s = .next (s.raise .illegalCommand) := by
  rw [exec, execViDec, hn, command_illegal h]

theorem exec_viDec_empty (h : s.Ready) (hn : legalPrefix n = true) (hsource : s.source = []) :
    exec (.viDec n) s = .next (s.raise .truncatedInput) := by
  rw [exec_viDec_legal h hn, decodeVarint, hsource]

theorem exec_viDec_short (h : s.Ready) (hn : legalPrefix n = true) {b0 : Octet} {rest : List Octet}
    (hsource : s.source = b0 :: rest) (hb0 : b0.toNat % 2 ^ n.toNat < prefixMask n) :
    exec (.viDec n) s = .next ((s.advance 1).setResult (b0.toNat % 2 ^ n.toNat)) := by
  rw [exec_viDec_legal h hn, decodeVarint, hsource]
  dsimp only
  rw [octet_and_prefixMask, if_pos hb0]

/-- `VI_DEC N` finds the all-ones prefix, then the octets `init`, each saying that another one follows, then `tail`
(R81, R151). -/
structure State.Continues (n : BitVec 6) (init tail : List Octet) (s : State) : Prop where
  ready : s.Ready
  legal : legalPrefix n = true
  source : ∃ b0, s.source = b0 :: (init ++ tail) ∧ b0.toNat % 2 ^ n.toNat = prefixMask n
  continues : ∀ c ∈ init, Octet.continues c = true

variable {init tail : List Octet}

/-- The command comes to the loop at `tail`, unless the sum has passed `2^62 - 1` before (R151). -/
theorem State.Continues.exec_viDec (h : s.Continues n init tail) (hsum : prefixMask n + payload init ≤ 2 ^ 62 - 1) :
    exec (.viDec n) s =
      decodeContinuation tail init.length (prefixMask n + payload init) (s.advance (1 + init.length)) := by
  obtain ⟨b0, hsource, hb0⟩ := h.source
  rw [exec_viDec_legal h.ready h.legal, decodeVarint, hsource]
  dsimp only
  rw [octet_and_prefixMask, hb0, if_neg (Nat.lt_irrefl _), decodeContinuation_append h.continues hsum,
    State.advance_advance]

theorem State.Continues.exec_viDec_last {last : Octet} (h : s.Continues n init (last :: tail))
    (hlast : Octet.continues last = false) (hsum : prefixMask n + payload (init ++ [last]) ≤ 2 ^ 62 - 1) :
    exec (.viDec n) s =
      .next ((s.advance (2 + init.length)).setResult (prefixMask n + payload (init ++ [last]))) := by
  have hle := payload_concat init last
  rw [h.exec_viDec (by omega), decodeContinuation_cons, if_pos hsum, hlast, if_neg Bool.false_ne_true,
    State.advance_advance, Nat.add_right_comm]

theorem State.Continues.exec_viDec_overflow {c : Octet} (h : s.Continues n init (c :: tail))
    (hinit : prefixMask n + payload init ≤ 2 ^ 62 - 1) (hsum : 2 ^ 62 - 1 < prefixMask n + payload (init ++ [c])) :
    exec (.viDec n) s = .next ((s.advance (2 + init.length)).raise .varintOverflow) := by
  rw [h.exec_viDec hinit, decodeContinuation_cons, if_neg (Nat.not_le.2 hsum), State.advance_advance,
    Nat.add_right_comm]

theorem State.Continues.exec_viDec_truncated (h : s.Continues n init [])
    (hsum : prefixMask n + payload init ≤ 2 ^ 62 - 1) :
    exec (.viDec n) s = .next ((s.advance (1 + init.length)).raise .truncatedInput) := by
  rw [h.exec_viDec hsum, decodeContinuation]

end Sys2Proof.Machine
end

section
/-! SUPPORT. `VI_ENC`: the digits it emits, how many they are, and what the command answers (R152, R156). -/
namespace Sys2Proof.Machine

/-! ### The digits -/

/-- `init` and `last` are the base-128 digits of `v`, least significant first, in the shortest form, bit 7 set on all
but the last (R152, R81). -/
structure Base128 (v : Nat) (init : List Octet) (last : Octet) : Prop where
  continues : ∀ c ∈ init, Octet.continues c = true
  ends : Octet.continues last = false
  payload_eq : payload (init ++ [last]) = v
  shortest : init ≠ [] → last ≠ 0

/-- A value of at most 7 bits is one digit. -/
theorem base128_singleton {v : Nat} (hv : v < 128) : Base128 v [] (BitVec.ofNat 8 v) where
  continues := by simp
  ends := by rw [Octet.continues, BitVec.getLsbD_ofNat, Nat.testBit_lt_two_pow hv, Bool.and_false]
  payload_eq := by
    rw [List.nil_append, payload_cons, payload_nil, BitVec.toNat_ofNat]
    omega
  shortest h := absurd rfl h

/-- A further digit comes before those of the quotient. -/
theorem Base128.cons {v : Nat} {init : List Octet} {last : Octet} (hv : 127 < v) (h : Base128 (v / 128) init last) :
    Base128 v (BitVec.ofNat 8 (v % 128 ||| 0x80) :: init) last where
  continues := List.forall_mem_cons.2 ⟨ofNat_or_80 _ ▸ octet_or_80_continues _, h.continues⟩
  ends := h.ends
  payload_eq := by
    rw [List.cons_append, payload_cons, h.payload_eq, ofNat_or_80, octet_or_80_mod, BitVec.toNat_ofNat]
    omega
  shortest _ hlast := by
    have hinit : init = [] := by_contra fun hne => h.shortest hne hlast
    have hq : payload [0] = v / 128 := by rw [← h.payload_eq, hinit, hlast, List.nil_append]
    rw [show payload [0] = 0 from rfl] at hq
    omega

/-- `k` is the number of base-128 digits of `v`, of which there is at least one (R156). -/
theorem log_128_add_one_eq {v k : Nat} (hk : 1 ≤ k) (hlt : v < 128 ^ k) (hge : k = 1 ∨ 128 ^ (k - 1) ≤ v) :
    Nat.log 128 v + 1 = k := by
  have hlog : Nat.log 128 v < k := Nat.log_lt_of_lt_pow' (Nat.ne_of_gt hk) hlt
  rcases hge with rfl | hge
  · omega
  · have hlog' : k - 1 ≤ Nat.log 128 v := Nat.le_log_of_pow_le (by decide) hge
    omega

/-- With enough fuel the loop of `VI_ENC` emits the digits of its value (R152). -/
theorem continuationOctets_base128 {fuel v : Nat} (hfuel : v ≤ fuel) :
    ∃ init last, continuationOctets fuel v = init ++ [last] ∧ Base128 v init last := by
  induction fuel generalizing v with
  | zero => exact ⟨[], _, rfl, base128_singleton (by omega)⟩
  | succ fuel ih =>
    rw [continuationOctets]
    split
    next hv =>
      obtain ⟨init, last, heq, hdigits⟩ := ih (v := v / 128) (by omega)
      exact ⟨_ :: init, last, by rw [heq, List.cons_append], hdigits.cons hv⟩
    next hv => exact ⟨[], _, rfl, base128_singleton (by omega)⟩

/-- The loop of `VI_ENC` emits one octet per base-128 digit, `Nat.log` being one less than their number (R156). -/
theorem continuationOctets_length {fuel v : Nat} (hfuel : v ≤ fuel) :
    (continuationOctets fuel v).length = Nat.log 128 v + 1 := by
  induction fuel generalizing v with
  | zero => rw [Nat.log_of_lt (by omega)]; rfl
  | succ fuel ih =>
    rw [continuationOctets]
    split
    next hv => rw [List.length_cons, ih (by omega), Nat.log_of_one_lt_of_le (by decide) hv]
    next hv => rw [Nat.log_of_lt (by omega)]; rfl

/-! ### What `VI_ENC` emits and answers -/

theorem varintOctets_short {m value : Nat} (h : value < m) (flags : Octet) :
    varintOctets m flags value = [flags ||| BitVec.ofNat 8 value] := if_pos h

theorem varintOctets_long {m value : Nat} (h : m ≤ value) (flags : Octet) :
    varintOctets m flags value =
      (flags ||| BitVec.ofNat 8 m) :: continuationOctets (value - m) (value - m) := if_neg (Nat.not_lt.2 h)

/-- The all-ones prefix, then the digits of what the value has beyond it (R152). -/
theorem varintOctets_base128 {m value : Nat} (h : m ≤ value) (flags : Octet) :
    ∃ init last, varintOctets m flags value = (flags ||| BitVec.ofNat 8 m) :: (init ++ [last]) ∧
      Base128 (value - m) init last := by
  obtain ⟨init, last, heq, hdigits⟩ := continuationOctets_base128 (Nat.le_refl (value - m))
  exact ⟨init, last, by rw [varintOctets_long h, heq], hdigits⟩

theorem varintOctets_length_long {m value : Nat} (h : m ≤ value) (flags : Octet) :
    (varintOctets m flags value).length = Nat.log 128 (value - m) + 2 := by
  rw [varintOctets_long h, List.length_cons, continuationOctets_length (Nat.le_refl _)]

theorem exec_viEnc_legal {s : State} {n : BitVec 6} (h : s.Ready) (hn : legalPrefix n = true) (flags : Octet)
    (value : Value) :
    exec (.viEnc n flags value) s = .next (s.emit (varintOctets (prefixMask n) flags value.toNat)) := by
  rw [exec, execViEnc, hn, command_legal h]

theorem exec_viEnc_illegal {s : State} {n : BitVec 6} (h : s.Ready) (hn : legalPrefix n = false) (flags : Octet)
    (value : Value) : exec (.viEnc n flags value) s = .next (s.raise .illegalCommand) := by
  rw [exec, execViEnc, hn, command_illegal h]

end Sys2Proof.Machine
end

section
/-! The statements on the varint unit. -/
namespace Sys2Proof.Machine

/-- Settles O46. Below the all-ones prefix the first octet's prefix is the value; otherwise the octets after it are the
digits of the rest of the value, and their payload is that rest. -/
theorem varintRoundTrip : Obligations.VarintRoundTrip := by
  intro n flags value h3 h8 hflags s hready
  have hn : legalPrefix n = true := legalPrefix_iff.2 ⟨h3, h8⟩
  have hmask := prefixMask_lt n
  have hresult : zext62 value.toNat = value := BitVec.ofNat_toNat 62 value
  refine ⟨_, exec_viEnc_legal hready hn flags value, fun u rest hu (hsource : u.source = _) => ?_⟩
  rcases Nat.lt_or_ge value.toNat (prefixMask n) with hshort | hlong
  · rw [varintOctets_short hshort] at hsource ⊢
    have hb0 := octet_or_mod_prefix hn hflags (hshort.trans hmask)
    rw [exec_viDec_short hu hn hsource (hb0.trans_lt hshort), hb0, State.setResult, hresult]
    rfl
  · obtain ⟨init, last, heq, hdigits⟩ := varintOctets_base128 hlong flags
    rw [heq] at hsource ⊢
    have hdec : u.Continues n init (last :: rest) :=
      ⟨hu, hn, ⟨_, by simpa using hsource, octet_or_mod_prefix hn hflags hmask⟩, hdigits.continues⟩
    have hsum : prefixMask n + payload (init ++ [last]) = value.toNat := by
      rw [hdigits.payload_eq, Nat.add_sub_of_le hlong]
    rw [hdec.exec_viDec_last hdigits.ends (by omega), hsum, State.setResult, hresult, Nat.add_comm 2]
    simp [State.advance]

/-- Settles O44. The source decides: it is empty, its first octet is below the all-ones prefix, or the loop comes past
the octets that say another one follows and ends at the next octet or at the end. -/
theorem viDecRule : Obligations.ViDecRule := by
  refine fun s n hready => ⟨fun hn => exec_viDec_illegal hready (legalPrefix_eq_false_iff.2 hn), fun h3 h8 => ?_⟩
  have hn : legalPrefix n = true := legalPrefix_iff.2 ⟨h3, h8⟩
  refine ⟨fun hempty => exec_viDec_empty hready hn (s.source_eq_nil_iff.2 hempty), fun b0 rest hsource =>
    ⟨exec_viDec_short hready hn hsource, fun hb0 => ⟨?_, ?_, fun hrest hsum => ?_⟩⟩⟩
  · rintro init last tail rfl hinit hlast hsum
    rw [State.Continues.exec_viDec_last ⟨hready, hn, ⟨b0, hsource, hb0⟩, hinit⟩ hlast hsum, State.advance,
      ← Nat.add_assoc]
    rfl
  · rintro init c tail rfl hinit hfits hsum
    rw [State.Continues.exec_viDec_overflow ⟨hready, hn, ⟨b0, hsource, hb0⟩, hinit⟩ hfits hsum, State.advance,
      ← Nat.add_assoc]
    rfl
  · rw [State.Continues.exec_viDec_truncated ⟨hready, hn, ⟨b0, by rwa [List.append_nil], hb0⟩, hrest⟩ hsum,
      State.advance, ← State.inLen_eq_of_source hsource]
    rfl

/-- Settles O45, from the octets of `varintOctets` and the digits they are. -/
theorem viEncRule : Obligations.ViEncRule := by
  refine fun s n flags value hready =>
    ⟨fun hn => exec_viEnc_illegal hready (legalPrefix_eq_false_iff.2 hn) flags value, fun h3 h8 => ?_⟩
  rw [exec_viEnc_legal hready (legalPrefix_iff.2 ⟨h3, h8⟩)]
  refine ⟨fun (hshort : _ < prefixMask n) => ?_, fun (hlong : prefixMask n ≤ _) => ?_⟩
  · rw [varintOctets_short hshort, State.emit]
  · obtain ⟨init, last, heq, hdigits⟩ := varintOctets_base128 hlong flags
    refine ⟨init, last, ?_, hdigits.continues, hdigits.ends, hdigits.payload_eq, hdigits.shortest⟩
    rw [heq]
    rfl

/-- Settles O47. The flag bits are no part of the prefix; the zero groups, `last` with bit 7 set before them, are octets
that say another one follows, and add nothing to the payload. -/
theorem decodingNotInjective : Obligations.DecodingNotInjective := by
  intro s u n b0 b1 last init tail₁ tail₂ k hs hu h3 h8 hb0 hb1 hinit hlast hsum hsource₁ hsource₂
  have hn : legalPrefix n = true := legalPrefix_iff.2 ⟨h3, h8⟩
  have hexec₁ := State.Continues.exec_viDec_last ⟨hs, hn, ⟨b0, hsource₁, hb0⟩, hinit⟩ hlast hsum
  have hpayload := payload_withZeroGroups init last k
  have hdec₂ : u.Continues n (withZeroGroups init last k) (0 :: tail₂) :=
    ⟨hu, hn, ⟨b1, by simpa [withZeroGroups, State.source] using hsource₂, hb1⟩,
      withZeroGroups_continues hinit last k⟩
  have hexec₂ := hdec₂.exec_viDec_last rfl (hpayload ▸ hsum)
  rw [hpayload] at hexec₂
  exact ⟨_, _, hexec₁, hexec₂, hs, hu, rfl⟩

/-- Settles O48. Past the prefix there are as many octets as base-128 digits, and `128^9` is beyond every value. -/
theorem encodedLength : Obligations.EncodedLength := by
  intro s n flags value hready h3 h8
  have hn : legalPrefix n = true := legalPrefix_iff.2 ⟨h3, h8⟩
  have hmask : prefixMask n < 2 ^ 8 := (prefixMask_lt n).trans_le (two_pow_le_of_legalPrefix hn)
  refine ⟨_, exec_viEnc_legal hready hn flags value,
    fun hshort => congrArg List.length (varintOctets_short hshort flags),
    fun k (hlong : prefixMask n ≤ value.toNat) hlt hge hk => ?_, ?_, fun hmax => ?_⟩
  · have hdigits : Nat.log 128 (value.toNat - prefixMask n) + 1 = k := log_128_add_one_eq hk hlt hge
    rw [varintOctets_length_long hlong]
    omega
  · rcases Nat.lt_or_ge value.toNat (prefixMask n) with hshort | hlong
    · rw [varintOctets_short hshort, List.length_singleton]
      decide
    · have hlog : Nat.log 128 (value.toNat - prefixMask n) < 9 := Nat.log_lt_of_lt_pow' (by decide) (by omega)
      rw [varintOctets_length_long hlong]
      omega
  · have hdigits : Nat.log 128 (value.toNat - prefixMask n) + 1 = 9 :=
      log_128_add_one_eq (by decide) (by omega) (.inr (by omega))
    rw [varintOctets_length_long (by omega)]
    omega

end Sys2Proof.Machine
end

section
/-! The statement on the refusal while a fault is recorded. -/
namespace Sys2Proof.Machine

/-- LoadInput has no effect while `FAULT` is not 0 (R184). -/
theorem perform_loadInput_faulted {s : State} {c : FaultCause} (h : s.fault = some c) (d : List Octet) :
    perform (.loadInput d) s = .next s := by
  simp [perform, h]

/-- Settles O52. Words and commands are refused by the check at their head, LoadInput by its own; the reads make no
such check. -/
theorem stickyFault : Obligations.StickyFault :=
  fun _ _ h => ⟨issueCommand_faulted h, exec_faulted h, perform_loadInput_faulted h, rfl, rfl, rfl⟩

end Sys2Proof.Machine
end

section
/-! SUPPORT. What a command finds right after a hard reset: no source, a cursor over nothing, no table (R40, R211). -/
namespace Sys2Proof.Machine

/-! ### `HUF_DECODE` without a table, and the octets of `VI_ENC` -/

/-- A table that is not built is found before the source is looked at (R125). -/
theorem exec_hufDecode_notBuilt {s : State} (h : s.Ready) (hv : s.lutValid = false) (len : Value) :
    exec (.hufDecode len) s = .next (s.raise .lutNotBuilt) := by
  rw [exec, execHufDecode, command_legal h, hv, if_neg Bool.false_ne_true]

theorem varintOctets_ne_nil (m : Nat) (flags : Octet) (value : Nat) : varintOctets m flags value ≠ [] := by
  rcases Nat.lt_or_ge value m with hshort | hlong
  · rw [varintOctets_short hshort]
    exact List.cons_ne_nil _ _
  · rw [varintOctets_long hlong]
    exact List.cons_ne_nil _ _

/-! ### The state after a hard reset -/

variable (s : State)

theorem State.hardReset_ready : s.hardReset.Ready := rfl

theorem State.hardReset_inLen : s.hardReset.inLen = 0 := rfl

theorem State.hardReset_source : s.hardReset.source = [] := rfl

/-- The cursor over the empty sequence is a legal one (R26, R40). -/
theorem State.hardReset_cursorLegal : s.hardReset.cursorLegal = true := rfl

/-- The window holds padding only, so the peek is all ones (R101). -/
theorem State.hardReset_peek : s.hardReset.peek = 0xFF := window_octet_padding (j := 0) (by decide) (Nat.zero_le _)

/-- There is no real bit for a shift to drop. -/
theorem State.hardReset_shift (n : Nat) : s.hardReset.shift n = s.hardReset := by
  rw [State.shift, hardReset_rb, Nat.zero_sub]
  rfl

/-- Loading no octet gives the cursor a reset has already made. -/
theorem State.hardReset_loadCursor_zero : s.hardReset.loadCursor 0 = s.hardReset := rfl

end Sys2Proof.Machine
end

section
/-! The statement on the commands right after a hard reset. -/
namespace Sys2Proof.Machine

/-- Settles O56: what each command answers in a ready state, with no source, no real bit and no table. -/
theorem commandsAfterHardReset : Obligations.CommandsAfterHardReset := by
  rintro s _ rfl
  have hready := s.hardReset_ready
  have hprefix {n : BitVec 6} (h3 : 3 ≤ n.toNat) (h8 : n.toNat ≤ 8) : legalPrefix n = true :=
    legalPrefix_iff.2 ⟨h3, h8⟩
  refine ⟨?peek, exec_bcRemain hready, fun n h1 h32 => ?shift, ?loadNone, fun len hlen => ?loadSome,
    fun n h3 h8 => exec_viDec_empty hready (hprefix h3 h8) s.hardReset_source,
    fun n f v h3 h8 => ⟨_, varintOctets_ne_nil _ _ _, exec_viEnc_legal hready (hprefix h3 h8) f v⟩,
    (exec_hufStep hready).trans (decodeStep_notBuilt rfl), exec_hufDecode_notBuilt hready rfl⟩
  case peek =>
    rw [exec_bcPeek_legal hready s.hardReset_cursorLegal, s.hardReset_peek]
    rfl
  case shift => rw [exec_bcShift_legal hready (legalShift_iff.2 ⟨h1, h32⟩), s.hardReset_shift]
  case loadNone =>
    have hfits : s.hardReset.ip + (0 : Value).toNat ≤ s.hardReset.inLen := Nat.le_refl 0
    exact (exec_bcLoad_fits hready hfits).trans (congrArg Host.Outcome.next s.hardReset_loadCursor_zero)
  case loadSome =>
    have hpos : 0 < len.toNat := Nat.pos_of_ne_zero fun h => hlen (BitVec.eq_of_toNat_eq h)
    refine exec_bcLoad_truncated hready ?_
    rw [s.hardReset_inLen]
    omega

end Sys2Proof.Machine
end

section
/-! SUPPORT. An instruction whose operand is out of range, as a word and as a meaning; the step of a pending move. -/
namespace Sys2Proof.Machine

/-- The word of an instruction that is not well-formed fails the check of its count field, and no other (R73 (c)). -/
theorem decode_encode_of_not_wf {i : Instr} (h : i.wf = false) : decode (encode i) = .error .countRange := by
  cases i <;> simp_all [Instr.wf, decode, encode, acceptIf]

/-- An instruction that is not well-formed raises `IllegalCommand` (R73, R104, R151, R152). -/
theorem exec_of_not_wf {s : State} (hready : s.Ready) {i : Instr} (h : i.wf = false) :
    exec i s = .next (s.raise .illegalCommand) := by
  cases i with
  | bcShift n => exact exec_bcShift_illegal hready h
  | viDec n => exact exec_viDec_illegal hready h
  | viEnc n flags value => exact exec_viEnc_illegal hready h flags value
  | _ => cases h

/-- Rows of one name are one row. -/
theorem opcodeMap_mnemonic_injective :
    ∀ r₁ ∈ opcodeMap, ∀ r₂ ∈ opcodeMap, r₁.mnemonic = r₂.mnemonic → r₁ = r₂ := by decide

/-- The step of a host that offers a move. -/
theorem step_of_pending {s : State} {m : HostMove} {rest : List HostMove} (h : s.pending = m :: rest) :
    step s = perform m (s.withPending rest) := by
  rw [step, nextMove, h]

end Sys2Proof.Machine
end

section
/-! The statements on words as commands, and on the host's moves. -/
namespace Sys2Proof.Machine

/-- Settles O4: the word of a well-formed instruction has its fields, and the decoder reads every field back. -/
theorem decodeOfEncode : Obligations.DecodeOfEncode :=
  fun _ hwf => decode_eq_ok_iff_encode.2 ⟨hwf, rfl⟩

/-- Settles O5, the other direction of the same equivalence. -/
theorem encodeOfDecode : Obligations.EncodeOfDecode :=
  fun _ _ h => decode_eq_ok_iff_encode.1 h

/-- Settles O3. A word that a row accepts is the word of an instruction of the row's name; a word decodes to one
instruction only, and the names of the rows differ. -/
theorem opcodeRowsDisjoint : Obligations.OpcodeRowsDisjoint := by
  intro w r₁ r₂ h₁ h₂ hacc₁ hacc₂
  obtain ⟨i₁, hwf₁, henc₁, hname₁⟩ := exists_encode_of_accepts h₁ hacc₁
  obtain ⟨i₂, hwf₂, henc₂, hname₂⟩ := exists_encode_of_accepts h₂ hacc₂
  have hdec₁ := decode_eq_ok_iff_encode.2 ⟨hwf₁, henc₁⟩
  have hdec₂ := decode_eq_ok_iff_encode.2 ⟨hwf₂, henc₂⟩
  obtain rfl : i₁ = i₂ := Except.ok.inj (hdec₁.symm.trans hdec₂)
  exact opcodeMap_mnemonic_injective r₁ h₁ r₂ h₂ (hname₁.symm.trans hname₂)

/-- Settles O8. With the operands in range the word decodes to the instruction; out of range, word and meaning raise
the same fault, unless both are refused. -/
theorem issuedEncodingRunsExec : Obligations.IssuedEncodingRunsExec := by
  intro i s
  cases hfault : s.fault with
  | some c => rw [issueCommand_faulted hfault, exec_faulted hfault]
  | none =>
    cases hwf : i.wf with
    | true => rw [issueCommand, decodeOfEncode i hwf]
    | false =>
      rw [issueCommand, decode_encode_of_not_wf hwf, exec_of_not_wf hfault hwf]
      exact command_illegal hfault _

/-- Settles O1, word by word. -/
theorem sampleWordsDecode : Obligations.SampleWordsDecode := by
  unfold Obligations.SampleWordsDecode
  decide

/-- Settles O7: the step performs the move, and the move runs what the word decodes to. -/
theorem stepRunsTheIssuedCommand : Obligations.StepRunsTheIssuedCommand := by
  intro s w rest i hpending hdecode
  rw [step_of_pending hpending, perform, issueCommand, hdecode]
  rfl

/-- Settles O9: the step performs the move, and only LoadInput looks at `FAULT` first. -/
theorem hostMoveTable : Obligations.HostMoveTable := by
  intro s rest
  refine ⟨step_of_pending, step_of_pending, fun d hpending hready => ?_, fun d c hpending hfault => ?_,
    fun w => step_of_pending, step_of_pending, step_of_pending, step_of_pending⟩
  · have hready' : (s.withPending rest).fault = none := hready
    rw [step_of_pending hpending, perform, hready']
    rfl
  · rw [step_of_pending hpending]
    exact perform_loadInput_faulted (s := s.withPending rest) hfault d

end Sys2Proof.Machine
end

section
/-! The statements on the items of the state after a reset, and on `STATUS`. -/
namespace Sys2Proof.Machine

/-- Right after a reset `STATUS` says only whether the table is built (R33). -/
theorem State.status_of_reset {s : State} (hdone : s.hdone = false) (hfault : s.fault = none) :
    s.status = if s.lutValid then 0x10 else 0x00 := by
  rw [State.status, State.faultCode, hdone, hfault]
  cases s.lutValid <;> rfl

/-- Settles O10: the two states agree in every item, and without a real bit the window is all ones. -/
theorem hardResetItems : Obligations.HardResetItems := by
  intro s h hh
  have hrb : h.rb = 0 := by rcases hh with rfl | rfl <;> rfl
  have hwindow := State.window_of_rb_eq_zero hrb
  have hstatus : h.status = 0x00 := by rcases hh with rfl | rfl <;> exact State.status_of_reset rfl rfl
  rcases hh with rfl | rfl <;>
    exact ⟨rfl, rfl, rfl, rfl, rfl, rfl, hwindow, rfl, rfl, rfl, rfl, rfl, rfl, rfl, rfl, hstatus⟩

/-- The four fields of an octet put together as `STATUS` is (R33). -/
theorem status_fields (d v : Bool) (c : BitVec 4) :
    ((0 : BitVec 2) ++ BitVec.ofBool d ++ BitVec.ofBool v ++ c).extractLsb' 0 4 = c ∧
      ((0 : BitVec 2) ++ BitVec.ofBool d ++ BitVec.ofBool v ++ c).getLsbD 4 = v ∧
      ((0 : BitVec 2) ++ BitVec.ofBool d ++ BitVec.ofBool v ++ c).getLsbD 5 = d ∧
      ((0 : BitVec 2) ++ BitVec.ofBool d ++ BitVec.ofBool v ++ c).extractLsb' 6 2 = 0 := by
  decide +revert

/-- The codes are 1 to 7, so that 0 is left for no fault (R181). -/
theorem State.faultCode_range (s : State) : s.faultCode.toNat ≤ 7 ∧ (s.faultCode = 0 ↔ s.fault = none) := by
  rw [State.faultCode]
  cases s.fault with
  | none => simp
  | some c => cases c <;> simp [FaultCause.code]

/-- Settles O12, from the fields of `STATUS`; after a soft reset only bit 4 may be set. -/
theorem statusLayout : Obligations.StatusLayout := by
  refine ⟨fun s => ?_, fun s => ?_⟩
  · obtain ⟨hcode, hvalid, hdone, hzero⟩ := status_fields s.hdone s.lutValid s.faultCode
    exact ⟨hcode, hvalid, hdone, hzero, s.faultCode_range⟩
  · have hsoft : s.softReset.status = if s.lutValid then 0x10 else 0x00 := State.status_of_reset rfl rfl
    obtain ⟨-, hvalid, -, -⟩ := status_fields s.hdone s.lutValid s.faultCode
    have hkept : s.status.getLsbD 4 = s.lutValid := hvalid
    refine ⟨State.status_of_reset rfl rfl, ?_, ?_⟩
    · rw [hsoft]
      cases s.lutValid <;> simp
    · rw [hsoft, hkept]
      cases s.lutValid <;> rfl

theorem reset_inv : State.reset.Inv where
  cursorInside := by decide
  bitsInside := by decide
  pointerInside := by decide
  layerAllocated := by decide
  rootWhenDone := by decide
  rootWhenNotBuilt := by decide
  tableWf := reset_lut_wf

/-- Settles O13: everything is empty, the table is one layer of `Empty` entries, and nothing is built. -/
theorem resetSatisfiesInvariants : Obligations.ResetSatisfiesInvariants :=
  ⟨reset_inv, Bool.noConfusion, ⟨Nat.zero_le _, by simp [State.reset]⟩⟩

end Sys2Proof.Machine
end

section
/-! SUPPORT. What stands in a table that a build has made: every entry comes from a code, and a code that is not placed
is comparable with one that is (R120, R121). -/
namespace Sys2Proof

theorem HuffCode.pattern_ne_nil (c : HuffCode) (h : 1 ≤ c.len) : c.pattern ≠ [] :=
  List.ne_nil_of_length_pos (c.pattern_length.symm ▸ h)

end Sys2Proof

namespace Sys2Proof.Machine

/-! ### The first octet of a long code -/

theorem natOfBits_take_lt {b : List Bool} (h : 8 < b.length) : natOfBits (b.take 8) < 256 := by
  have hlt := natOfBits_lt (b.take 8)
  rwa [List.length_take_of_le h.le] at hlt

theorem bitsOfNat_natOfBits_take {b : List Bool} (h : 8 < b.length) : bitsOfNat 8 (natOfBits (b.take 8)) = b.take 8 := by
  have hbits := bitsOfNat_natOfBits (b.take 8)
  rwa [List.length_take_of_le h.le] at hbits

theorem drop_octet_ne_nil {b : List Bool} (h : 8 < b.length) : b.drop 8 ≠ [] := by
  simpa [List.drop_eq_nil_iff] using h

/-! ### Runs of a layer -/

/-- An index in the run of `b`'s leaves begins with the bits `b` (R121). -/
theorem prefix_of_mem_run {b : List Bool} (hlen : b.length ≤ 8) {k : Nat}
    (hlow : natOfBits b <<< (8 - b.length) ≤ k) (hhigh : k < natOfBits b <<< (8 - b.length) + 2 ^ (8 - b.length)) :
    b <+: bitsOfNat 8 k := by
  obtain ⟨r, rfl⟩ := Nat.exists_eq_add_of_le hlow
  have hr : natOfBits (bitsOfNat (8 - b.length) r) = r := by
    rw [natOfBits_bitsOfNat, Nat.mod_eq_of_lt (by omega)]
  have hk : natOfBits b <<< (8 - b.length) + r = natOfBits (b ++ bitsOfNat (8 - b.length) r) := by
    rw [natOfBits_append, hr, bitsOfNat_length, Nat.shiftLeft_eq]
  have hbits := bitsOfNat_natOfBits (b ++ bitsOfNat (8 - b.length) r)
  rw [List.length_append, bitsOfNat_length, Nat.add_sub_cancel' hlen] at hbits
  rw [hk, hbits]
  exact List.prefix_append _ _

/-- The run of `b`'s leaves lies inside a layer. -/
theorem run_le_256 {b : List Bool} (hlen : b.length ≤ 8) :
    natOfBits b <<< (8 - b.length) + 2 ^ (8 - b.length) ≤ 256 := by
  have hpow : 2 ^ b.length * 2 ^ (8 - b.length) = 256 := by rw [← pow_add, Nat.add_sub_cancel' hlen]; rfl
  have hmul : (natOfBits b + 1) * 2 ^ (8 - b.length) ≤ 2 ^ b.length * 2 ^ (8 - b.length) :=
    Nat.mul_le_mul_right _ (natOfBits_lt b)
  rw [Nat.shiftLeft_eq]
  rw [Nat.add_mul, Nat.one_mul] at hmul
  exact hmul.trans_eq hpow

/-- A run that meets a collision met an entry that is not `Empty` (R121). -/
theorem fillLoop_collision {e : Entry} {n i : Nat} {l : Layer} (h : (fillLoop e n i l).2 = false) :
    ∃ k, i ≤ k ∧ k < i + n ∧ l[k]? ≠ some .empty := by
  induction n generalizing i l with
  | zero => cases h
  | succ n ih =>
    rw [fillLoop] at h
    split at h
    next hfree =>
      obtain ⟨k, hik, hkn, hk⟩ := ih h
      rw [List.getElem?_set_ne (by omega)] at hk
      exact ⟨k, by omega, by omega, hk⟩
    next hfree => exact ⟨i, le_rfl, by omega, hfree⟩

/-- The leaves of the last bits of a code are refused where one of their entries is taken (R121). -/
theorem placeLeaf_error {t u : Lut} {l : Nat} {sym : Fin 257} {b : List Bool} (h : placeLeaf t l sym b = .error u) :
    ∃ k, natOfBits b <<< (8 - b.length) ≤ k ∧ k < natOfBits b <<< (8 - b.length) + 2 ^ (8 - b.length) ∧
      t.entry? l k ≠ some .empty := by
  rw [placeLeaf, fillRun_eq_fillLoop] at h
  split at h
  next => cases h
  next hfail =>
    simp only [Lut.entry?_eq_getD]
    exact fillLoop_collision (Bool.eq_false_iff.2 hfail)

/-! ### Bit strings of which one begins the other -/

/-- One of two bit strings is a beginning of the other. -/
def Comparable (b c : List Bool) : Prop := b <+: c ∨ c <+: b

theorem Comparable.symm {b c : List Bool} (h : Comparable b c) : Comparable c b := Or.symm h

theorem comparable_of_prefix {b c d : List Bool} (hb : b <+: d) (hc : c <+: d) : Comparable b c :=
  List.prefix_or_prefix_of_prefix hb hc

theorem Comparable.of_append_left {a b c : List Bool} (h : Comparable (a ++ b) (a ++ c)) : Comparable b c :=
  h.imp (List.prefix_append_right_inj a).1 (List.prefix_append_right_inj a).1

/-- Comparable strings begin with the same octet. -/
theorem Comparable.take_eq {b c : List Bool} (h : Comparable b c) (hb : 8 ≤ b.length) (hc : 8 ≤ c.length) :
    b.take 8 = c.take 8 := by
  rcases h with ⟨x, rfl⟩ | ⟨x, rfl⟩
  · rw [List.take_append_of_le_length hb]
  · rw [List.take_append_of_le_length hc]

/-- The codes of a prefix-free table are those no two of which are comparable. -/
theorem isPrefixOf_eq_false_iff {b c : List Bool} :
    (b.isPrefixOf c = false ∧ c.isPrefixOf b = false) ↔ ¬ Comparable b c := by
  rw [Comparable, not_or, ← List.isPrefixOf_iff_prefix, ← List.isPrefixOf_iff_prefix, Bool.not_eq_true,
    Bool.not_eq_true]

/-! ### A code that leads somewhere bars the comparable ones -/

/-- The eight bits that extend a string of at most eight. -/
theorem exists_octet_extension {b : List Bool} (h : b.length ≤ 8) : ∃ i : List Bool, i.length = 8 ∧ b <+: i :=
  ⟨b ++ List.replicate (8 - b.length) false, by simp [h], List.prefix_append _ _⟩

/-- A leaf is not placed in the way of a code that stands. -/
theorem placeLeaf_not_comparable {t u : Lut} {l : Nat} {sym sym' : Fin 257} {b b' : List Bool}
    (h : placeLeaf t l sym b = .ok u) (hlen : b.length ≤ 8) (hlead : t.LeadsTo sym' l b') : ¬ Comparable b b' := by
  have hfree {i : List Bool} (hi : i.length = 8) (hb : b <+: i) : t.entry? l (natOfBits i) = some .empty := by
    rw [placeLeaf, fillRun_eq_fillLoop] at h
    split at h
    case isFalse => cases h
    next hdone =>
      have hrun := fillLoop_getElem? hdone (natOfBits i)
      rw [if_pos (natOfBits_mem_run hi hb), ← Lut.entry?_eq_getD] at hrun
      exact hrun.1
  intro hcomp
  cases hlead with
  | leaf _ _ _ hlen' hleaf =>
    obtain ⟨i, hi, hb, hb'⟩ : ∃ i : List Bool, i.length = 8 ∧ b <+: i ∧ b' <+: i := by
      rcases hcomp with hpre | hpre
      · obtain ⟨i, hi, hext⟩ := exists_octet_extension hlen'
        exact ⟨i, hi, hpre.trans hext, hext⟩
      · obtain ⟨i, hi, hext⟩ := exists_octet_extension hlen
        exact ⟨i, hi, hext, hpre.trans hext⟩
    cases (hfree hi hb).symm.trans (hleaf i hi hb')
  | branch _ m i b' hne hi hbranch _ =>
    have hb : b <+: i := by
      rcases hcomp with hpre | hpre
      · exact List.prefix_of_prefix_length_le hpre (List.prefix_append _ _) (by omega)
      · have hle := hpre.length_le
        have hpos := List.length_pos_iff.2 hne
        rw [List.length_append] at hle
        omega
    cases (hfree hi hb).symm.trans hbranch

/-- A code is not placed in the way of a code that stands (R121). -/
theorem place_not_comparable {sym sym' : Fin 257} {fuel l : Nat} {b b' : List Bool} {t u : Lut}
    (h : place sym fuel l b t = .ok u) (hfuel : b.length ≤ fuel) (hne : b ≠ []) (hlead : t.LeadsTo sym' l b') :
    ¬ Comparable b b' := by
  induction fuel generalizing l b b' t with
  | zero => exact absurd (List.eq_nil_of_length_eq_zero (Nat.le_zero.1 hfuel)) hne
  | succ fuel ih =>
    rw [place] at h
    split at h
    next hlen => exact placeLeaf_not_comparable h hlen hlead
    next hlen =>
      have hlong : 8 < b.length := Nat.not_le.1 hlen
      have htake : (b.take 8).length = 8 := List.length_take_of_le hlong.le
      intro hcomp
      dsimp only at h
      cases hlead with
      | leaf _ _ _ hlen' hleaf =>
        have hb' : b' <+: b := by
          rcases hcomp with hpre | hpre
          · exact absurd hpre.length_le (by omega)
          · exact hpre
        have hentry := hleaf (b.take 8) htake (List.prefix_of_prefix_length_le hb' (List.take_prefix _ _) (by omega))
        rw [hentry] at h
        cases h
      | branch _ m i b' hne' hi hbranch hdeeper =>
        have hsame : b.take 8 = i := by
          rw [hcomp.take_eq hlong.le (by rw [List.length_append]; omega), List.take_left' hi]
        rw [hsame, hbranch] at h
        refine ih h (by simp only [List.length_drop, Config.peekBits]; omega) (drop_octet_ne_nil hlong) hdeeper ?_
        rw [← List.take_append_drop 8 b, hsame] at hcomp
        exact hcomp.of_append_left

/-- None of the codes placed later is comparable with a code that stands. -/
theorem placeAll_not_comparable {codes : CodeTable} {t u : Lut} (hcodes : CodeTable.NonEmpty codes)
    (h : placeAll codes t = .ok u) {sym : Fin 257} {b : List Bool} (hlead : t.LeadsTo sym 0 b) :
    ∀ c ∈ codes, ¬ Comparable b c.pattern := by
  induction codes generalizing t with
  | nil => simp
  | cons c cs ih =>
    rw [placeAll] at h
    split at h
    case h_2 => cases h
    next v hv =>
      rw [CodeTable.NonEmpty, List.forall_mem_cons] at hcodes
      obtain ⟨hc, hcs⟩ := hcodes
      have hne : c.pattern ≠ [] := c.pattern_ne_nil hc
      obtain ⟨hext, -⟩ := place_ok hv hne c.pattern_length.le
      rw [List.forall_mem_cons]
      exact ⟨fun hcomp => place_not_comparable hv c.pattern_length.le hne hlead hcomp.symm,
        ih hcs h (hlead.mono hext)⟩

/-- The codes that a build has placed are prefix-free (R121). -/
theorem prefixFree_of_placeAll_ok {codes : CodeTable} {t u : Lut} (hcodes : CodeTable.NonEmpty codes)
    (h : placeAll codes t = .ok u) : CodeTable.PrefixFree codes := by
  induction codes generalizing t with
  | nil => exact List.Pairwise.nil
  | cons c cs ih =>
    rw [placeAll] at h
    split at h
    case h_2 => cases h
    next v hv =>
      rw [CodeTable.NonEmpty, List.forall_mem_cons] at hcodes
      obtain ⟨hc, hcs⟩ := hcodes
      have hne : c.pattern ≠ [] := c.pattern_ne_nil hc
      obtain ⟨-, hlead⟩ := place_ok hv hne c.pattern_length.le
      rw [CodeTable.PrefixFree, List.pairwise_cons]
      exact ⟨fun c' hc' => isPrefixOf_eq_false_iff.2 (placeAll_not_comparable hcs h hlead c' hc'), ih hcs h⟩

/-! ### Every entry comes from a code -/

/-- The layers of `t` have the prefixes `pre`, and every entry that is not `Empty` is there for one of `codes`: a leaf
for the code it ends, a branch for a code that goes on (R120). -/
structure Lut.Labelled (t : Lut) (codes : CodeTable) (pre : List (List Bool)) : Prop where
  length_eq : pre.length = t.length
  root : pre[0]? = some []
  leaf : ∀ l i sym x, t.entry? l i = some (.leaf sym x) → ∃ p, pre[l]? = some p ∧
    ∃ c ∈ codes, c.sym = sym ∧ c.pattern = p ++ (bitsOfNat 8 i).take (x.val + 1)
  branch : ∀ l i m, t.entry? l i = some (.branch m) → ∃ p, pre[l]? = some p ∧ pre[m]? = some (p ++ bitsOfNat 8 i) ∧
    ∃ c ∈ codes, p ++ bitsOfNat 8 i <+: c.pattern ∧ p.length + 8 < c.pattern.length

variable {t : Lut} {codes : CodeTable} {pre : List (List Bool)}

theorem Lut.Labelled.mono (h : t.Labelled codes pre) {codes' : CodeTable} (hsub : codes ⊆ codes') :
    t.Labelled codes' pre where
  length_eq := h.length_eq
  root := h.root
  leaf l i sym x he :=
    have ⟨p, hp, c, hc, hrest⟩ := h.leaf l i sym x he
    ⟨p, hp, c, hsub hc, hrest⟩
  branch l i m he :=
    have ⟨p, hp, hm, c, hc, hrest⟩ := h.branch l i m he
    ⟨p, hp, hm, c, hsub hc, hrest⟩

theorem entry?_fresh {k i : Nat} {e : Entry} (h : Lut.entry? [Layer.fresh] k i = some e) : e = .empty := by
  cases k with
  | zero =>
    have hmem : e ∈ Layer.fresh := List.mem_of_getElem? h
    exact List.eq_of_mem_replicate hmem
  | succ k => cases h

/-- The table a build begins with. -/
theorem fresh_labelled (codes : CodeTable) : Lut.Labelled [Layer.fresh] codes [[]] where
  length_eq := rfl
  root := rfl
  leaf _ _ _ _ he := nomatch entry?_fresh he
  branch _ _ _ he := nomatch entry?_fresh he

/-- The layer that a branch names has a prefix, so it is allocated. -/
theorem Lut.Labelled.lt_of_prefix (h : t.Labelled codes pre) {l : Nat} {p : List Bool} (hp : pre[l]? = some p) :
    l < t.length :=
  h.length_eq ▸ (List.getElem?_eq_some_iff.1 hp).1

/-- The entries of a table in which a run of leaves has been written. -/
theorem entry?_placeLeaf {u : Lut} {l : Nat} {sym : Fin 257} {b : List Bool} (h : placeLeaf t l sym b = .ok u)
    {k i : Nat} {e : Entry} (he : u.entry? k i = some e) : t.entry? k i = some e ∨
      (k = l ∧ e = .leaf sym (Fin.ofNat 8 (b.length - 1)) ∧ natOfBits b <<< (8 - b.length) ≤ i ∧
        i < natOfBits b <<< (8 - b.length) + 2 ^ (8 - b.length)) := by
  rw [placeLeaf, fillRun_eq_fillLoop] at h
  split at h
  case isFalse => cases h
  next hdone =>
    cases h
    by_cases hk : l = k
    · subst hk
      have hrun := fillLoop_getElem? hdone i
      have hl : l < t.length := by simpa using Lut.lt_length_of_entry? he
      rw [Lut.entry?_set_self hl] at he
      split at hrun
      next hmem => exact .inr ⟨rfl, Option.some.inj (he.symm.trans hrun.2), hmem⟩
      next =>
        rw [Lut.entry?_eq_getD]
        exact .inl (hrun.symm.trans he)
    · rw [Lut.entry?_set_ne hk] at he
      exact .inl he

theorem placeLeaf_labelled (h : t.Labelled codes pre) {u : Lut} {l : Nat} {b p : List Bool} {c : HuffCode}
    (hc : c ∈ codes) (hp : pre[l]? = some p) (hpattern : c.pattern = p ++ b) (hne : b ≠ []) (hlen : b.length ≤ 8)
    (hok : placeLeaf t l c.sym b = .ok u) : u.Labelled codes pre := by
  have hpos : 0 < b.length := List.length_pos_iff.2 hne
  have hcount : (Fin.ofNat 8 (b.length - 1)).val + 1 = b.length := by simp only [Fin.ofNat]; omega
  refine ⟨?_, h.root, fun k i sym x he => ?_, fun k i m he => ?_⟩
  · rw [h.length_eq]
    rw [placeLeaf] at hok
    split at hok <;> cases hok
    simp
  · rcases entry?_placeLeaf hok he with hold | ⟨rfl, hnew, hlow, hhigh⟩
    · exact h.leaf k i sym x hold
    · cases hnew
      refine ⟨p, hp, c, hc, rfl, ?_⟩
      rw [hpattern, hcount, ← List.prefix_iff_eq_take.1 (prefix_of_mem_run hlen hlow hhigh)]
  · rcases entry?_placeLeaf hok he with hold | ⟨-, hnew, -⟩
    · exact h.branch k i m hold
    · cases hnew

/-- The table in which a fresh layer hangs under entry `i` of layer `l` (R121). -/
def Lut.grow (t : Lut) (l i : Nat) : Lut := t.set l ((t.getD l []).set i (.branch t.length)) ++ [Layer.fresh]

@[simp] theorem Lut.grow_length (t : Lut) (l i : Nat) : (t.grow l i).length = t.length + 1 := by simp [Lut.grow]

theorem Lut.grow_last (t : Lut) (l i : Nat) : (t.grow l i).getD t.length [] = Layer.fresh := by
  simp [Lut.grow, List.getD_eq_getElem?_getD]

/-- The entries of a table that has grown by a layer. -/
theorem Lut.entry?_grow {l i k j : Nat} {e : Entry} (he : (t.grow l i).entry? k j = some e) :
    t.entry? k j = some e ∨ (k = l ∧ j = i ∧ e = .branch t.length) ∨ e = .empty := by
  by_cases hk : k < t.length
  · rw [Lut.grow, Lut.entry?_append (by simpa using hk)] at he
    by_cases hlk : l = k
    · subst hlk
      rw [Lut.entry?_set_self hk, List.getElem?_set] at he
      split at he
      next hij =>
        split at he
        · exact .inr (.inl ⟨rfl, hij.symm, (Option.some.inj he).symm⟩)
        · cases he
      next =>
        rw [Lut.entry?_eq_getD]
        exact .inl he
    · rw [Lut.entry?_set_ne hlk] at he
      exact .inl he
  · have hlast : k = t.length := by
      have := Lut.lt_length_of_entry? he
      rw [Lut.grow_length] at this
      omega
    subst hlast
    rw [Lut.entry?_eq_getD, Lut.grow_last] at he
    exact .inr (.inr (entry?_fresh (k := 0) he))

theorem Lut.Labelled.grow (h : t.Labelled codes pre) {l i : Nat} {p : List Bool} {c : HuffCode} (hc : c ∈ codes)
    (hp : pre[l]? = some p) (hpre : p ++ bitsOfNat 8 i <+: c.pattern) (hlong : p.length + 8 < c.pattern.length) :
    (t.grow l i).Labelled codes (pre ++ [p ++ bitsOfNat 8 i]) := by
  have hkeep {k : Nat} {q : List Bool} (hq : pre[k]? = some q) : (pre ++ [p ++ bitsOfNat 8 i])[k]? = some q := by
    rw [List.getElem?_append_left (List.getElem?_eq_some_iff.1 hq).1, hq]
  refine ⟨by simp [h.length_eq], hkeep h.root, fun k j sym x he => ?_, fun k j m he => ?_⟩
  · rcases Lut.entry?_grow he with hold | ⟨-, -, hnew⟩ | hnew
    · obtain ⟨q, hq, hcode⟩ := h.leaf k j sym x hold
      exact ⟨q, hkeep hq, hcode⟩
    · cases hnew
    · cases hnew
  · rcases Lut.entry?_grow he with hold | ⟨rfl, rfl, hnew⟩ | hnew
    · obtain ⟨q, hq, hm, hcode⟩ := h.branch k j m hold
      exact ⟨q, hkeep hq, hkeep hm, hcode⟩
    · cases hnew
      exact ⟨p, hkeep hp, by rw [← h.length_eq]; simp, c, hc, hpre, hlong⟩
    · cases hnew

/-- The prefix of the layer that a branch of a labelled table names. -/
theorem Lut.Labelled.prefix_of_branch (h : t.Labelled codes pre) {l i m : Nat} {p : List Bool} (hp : pre[l]? = some p)
    (he : t.entry? l i = some (.branch m)) : pre[m]? = some (p ++ bitsOfNat 8 i) := by
  obtain ⟨q, hq, hm, -⟩ := h.branch l i m he
  cases hp.symm.trans hq
  exact hm

/-- Placing a code keeps that every entry comes from a code (R121). -/
theorem place_labelled {fuel l : Nat} {b p : List Bool} {u : Lut} {c : HuffCode} (h : t.Labelled codes pre)
    (hc : c ∈ codes) (hp : pre[l]? = some p) (hpattern : c.pattern = p ++ b) (hne : b ≠ [])
    (hok : place c.sym fuel l b t = .ok u) : ∃ pre', u.Labelled codes pre' := by
  induction fuel generalizing l b p t pre with
  | zero =>
    cases hok
    exact ⟨pre, h⟩
  | succ fuel ih =>
    rw [place] at hok
    split at hok
    next hlen => exact ⟨pre, placeLeaf_labelled h hc hp hpattern hne hlen hok⟩
    next hlen =>
      have hlong : 8 < b.length := Nat.not_le.1 hlen
      have hdrop := drop_octet_ne_nil hlong
      have hpattern' : c.pattern = (p ++ bitsOfNat 8 (natOfBits (b.take 8))) ++ b.drop 8 := by
        rw [bitsOfNat_natOfBits_take hlong, List.append_assoc, List.take_append_drop, hpattern]
      dsimp only at hok
      split at hok
      next m hm => exact ih h (h.prefix_of_branch hp hm) hpattern' hdrop hok
      next hempty =>
        have hgrow := h.grow (i := natOfBits (b.take 8)) hc hp (hpattern' ▸ List.prefix_append _ _)
          (by rw [hpattern, List.length_append]; omega)
        exact ih hgrow (by rw [← h.length_eq]; simp) hpattern' hdrop hok
      next => cases hok
      next => cases hok

/-! ### A code that is not placed is comparable with one that is -/

theorem Lut.entry?_of_fresh_layer {l k : Nat} (h : t.getD l [] = Layer.fresh) (hk : k < 256) :
    t.entry? l k = some .empty := by
  rw [Lut.entry?_eq_getD, h, Layer.fresh, List.getElem?_replicate_of_lt hk]

/-- In a fresh layer and below it every code finds room. -/
theorem place_fresh_ok (sym : Fin 257) {fuel l : Nat} {b : List Bool} (h : t.getD l [] = Layer.fresh) :
    ∃ u, place sym fuel l b t = .ok u := by
  induction fuel generalizing l b t with
  | zero => exact ⟨t, rfl⟩
  | succ fuel ih =>
    rw [place]
    split
    next hlen =>
      cases hleaf : placeLeaf t l sym b with
      | ok u => exact ⟨u, rfl⟩
      | error u =>
        obtain ⟨k, -, hk, htaken⟩ := placeLeaf_error hleaf
        exact absurd (Lut.entry?_of_fresh_layer h (hk.trans_le (run_le_256 hlen))) htaken
    next hlen =>
      dsimp only
      rw [Lut.entry?_of_fresh_layer h (natOfBits_take_lt (Nat.not_le.1 hlen))]
      exact ih (t.grow_last l _)

/-- What stands at an index that begins with `b` belongs to a code comparable with the prefix of the layer and `b`. -/
theorem Lut.Labelled.exists_comparable (h : t.Labelled codes pre) {l k : Nat} {b p : List Bool} {e : Entry}
    (hp : pre[l]? = some p) (hb : b <+: bitsOfNat 8 k) (he : t.entry? l k = some e) (hne : e ≠ .empty) :
    ∃ c ∈ codes, Comparable c.pattern (p ++ b) := by
  have hpb : p ++ b <+: p ++ bitsOfNat 8 k := (List.prefix_append_right_inj p).2 hb
  cases e with
  | empty => exact absurd rfl hne
  | leaf sym x =>
    obtain ⟨q, hq, c, hc, -, hpattern⟩ := h.leaf l k sym x he
    cases hp.symm.trans hq
    refine ⟨c, hc, comparable_of_prefix ?_ hpb⟩
    rw [hpattern, List.prefix_append_right_inj]
    exact List.take_prefix _ _
  | branch m =>
    obtain ⟨q, hq, -, c, hc, hpre, -⟩ := h.branch l k m he
    cases hp.symm.trans hq
    exact ⟨c, hc, .inr (hpb.trans hpre)⟩

/-- A collision is met in the way of a code that stands (R121). -/
theorem place_error_comparable {sym : Fin 257} {fuel l : Nat} {b p : List Bool} {u : Lut} (h : t.Labelled codes pre)
    (hwf : Lut.wf t = true) (hp : pre[l]? = some p) (herr : place sym fuel l b t = .error u) :
    ∃ c ∈ codes, Comparable c.pattern (p ++ b) := by
  induction fuel generalizing l b p with
  | zero => cases herr
  | succ fuel ih =>
    have hentry {k : Nat} (hk : k < 256) : ∃ e, t.entry? l k = some e :=
      have ⟨e, he, _⟩ := Lut.wf_entry hwf (h.lt_of_prefix hp) hk
      ⟨e, he⟩
    rw [place] at herr
    split at herr
    next hlen =>
      obtain ⟨k, hlow, hhigh, htaken⟩ := placeLeaf_error herr
      obtain ⟨e, he⟩ := hentry (hhigh.trans_le (run_le_256 hlen))
      refine h.exists_comparable hp (prefix_of_mem_run hlen hlow hhigh) he ?_
      rintro rfl
      exact htaken he
    next hlen =>
      have hlong : 8 < b.length := Nat.not_le.1 hlen
      have hoctet := bitsOfNat_natOfBits_take hlong
      dsimp only at herr
      split at herr
      next m hm =>
        have hdeeper := ih (h.prefix_of_branch hp hm) herr
        rwa [hoctet, List.append_assoc, List.take_append_drop] at hdeeper
      next hempty =>
        obtain ⟨v, hv⟩ := place_fresh_ok sym (t.grow_last l (natOfBits (b.take 8)))
        cases hv.symm.trans herr
      next s x hleaf =>
        obtain ⟨q, hq, c, hc, -, hpattern⟩ := h.leaf _ _ _ _ hleaf
        cases hp.symm.trans hq
        refine ⟨c, hc, .inl ?_⟩
        rw [hpattern, hoctet, List.prefix_append_right_inj]
        exact (List.take_prefix _ _).trans (List.take_prefix _ _)
      next hnone =>
        obtain ⟨e, he⟩ := hentry (natOfBits_take_lt hlong)
        cases hnone.symm.trans he

/-- Codes that are comparable neither with one another nor with what stands are all placed (R121). -/
theorem placeAll_ok_of_prefixFree {done codes : CodeTable} (h : t.Labelled done pre) (hwf : Lut.wf t = true)
    (hcodes : CodeTable.NonEmpty codes) (hfree : CodeTable.PrefixFree codes)
    (hdone : ∀ d ∈ done, ∀ c ∈ codes, ¬ Comparable d.pattern c.pattern) : ∃ u, placeAll codes t = .ok u := by
  induction codes generalizing done t pre with
  | nil => exact ⟨t, rfl⟩
  | cons c cs ih =>
    rw [CodeTable.NonEmpty, List.forall_mem_cons] at hcodes
    rw [CodeTable.PrefixFree, List.pairwise_cons] at hfree
    obtain ⟨hc, hcs⟩ := hcodes
    obtain ⟨hcfree, hcsfree⟩ := hfree
    have hne : c.pattern ≠ [] := c.pattern_ne_nil hc
    have hroot : 0 < t.length := h.lt_of_prefix h.root
    rw [placeAll]
    cases hplace : place c.sym c.len 0 c.pattern t with
    | error u =>
      obtain ⟨d, hd, hcomp⟩ := place_error_comparable h hwf h.root hplace
      exact absurd hcomp (hdone d hd c List.mem_cons_self)
    | ok u =>
      obtain ⟨pre', h'⟩ := place_labelled (h.mono (List.subset_cons_self c done)) List.mem_cons_self h.root rfl hne hplace
      refine ih h' ((place_wf c.sym c.len hwf hroot c.pattern).1 u hplace) hcs hcsfree ?_
      rw [List.forall_mem_cons]
      exact ⟨fun c' hc' => isPrefixOf_eq_false_iff.1 (hcfree c' hc'),
        fun d hd c' hc' => hdone d hd c' (List.mem_cons_of_mem c hc')⟩

/-- Placing codes keeps that every entry comes from a code (R121). -/
theorem placeAll_labelled {all : CodeTable} {u : Lut} (h : t.Labelled all pre) (hcodes : CodeTable.NonEmpty codes)
    (hsub : codes ⊆ all) (hok : placeAll codes t = .ok u) : ∃ pre', u.Labelled all pre' := by
  induction codes generalizing t pre with
  | nil =>
    cases hok
    exact ⟨pre, h⟩
  | cons c cs ih =>
    rw [placeAll] at hok
    split at hok
    case h_2 => cases hok
    next v hv =>
      rw [CodeTable.NonEmpty, List.forall_mem_cons] at hcodes
      rw [List.cons_subset] at hsub
      obtain ⟨hc, hcs⟩ := hcodes
      obtain ⟨hmem, hsub⟩ := hsub
      obtain ⟨pre', h'⟩ := place_labelled h hmem h.root rfl (c.pattern_ne_nil hc) hv
      exact ih h' hcs hsub hok

end Sys2Proof.Machine
end

section
/-! SUPPORT. A finished table, read by walks from the root (R120). -/
namespace Sys2Proof.Machine

variable {t : Lut} {codes : CodeTable} {pre : List (List Bool)} {sym : Fin 257} {l : Nat} {b : List Bool}

/-- Every entry of a finished table comes from a code (R120). -/
theorem build_labelled (hcodes : CodeTable.NonEmpty codes) (h : build codes = .ok t) : ∃ pre, t.Labelled codes pre :=
  placeAll_labelled (fresh_labelled codes) hcodes (List.Subset.refl codes) h

/-! ### Walks -/

theorem bitsOfOctets_concat (p : List (BitVec 8)) (i : BitVec 8) :
    bitsOfOctets (p ++ [i]) = bitsOfOctets p ++ bitsOfNat 8 i.toNat := by
  simp [bitsOfOctets]

/-- A walk goes one branch further. -/
theorem Lut.walk_concat {p : List (BitVec 8)} {i : BitVec 8} {k m : Nat} (h : t.walk l p = some k)
    (he : t.entry? k i.toNat = some (.branch m)) : t.walk l (p ++ [i]) = some m := by
  induction p generalizing l with
  | nil =>
    cases h
    rw [List.nil_append, Lut.walk, he]
    rfl
  | cons j p ih =>
    rw [List.cons_append]
    rw [Lut.walk] at h ⊢
    split at h
    next n hn => exact ih h
    all_goals cases h

/-- The layer that a walk reaches has the indices of the walk in its prefix (R120). -/
theorem Lut.Labelled.prefix_of_walk (h : t.Labelled codes pre) {q : List Bool} (hq : pre[l]? = some q)
    {p : List (BitVec 8)} {k : Nat} (hw : t.walk l p = some k) : pre[k]? = some (q ++ bitsOfOctets p) := by
  induction p generalizing l q with
  | nil =>
    cases hw
    rw [hq, bitsOfOctets, List.flatMap_nil, List.append_nil]
  | cons i p ih =>
    rw [Lut.walk] at hw
    split at hw
    next m hm =>
      rw [ih (h.prefix_of_branch hq hm) hw, bitsOfOctets_cons, List.append_assoc]
    all_goals cases hw

/-! ### Where a code leads -/

/-- The bits of the last layer lead to a leaf. -/
theorem Lut.LeadsTo.entry_leaf (h : t.LeadsTo sym l b) (hlen : b.length ≤ 8) {i : List Bool} (hi : i.length = 8)
    (hb : b <+: i) : t.entry? l (natOfBits i) = some (.leaf sym (Fin.ofNat 8 (b.length - 1))) := by
  cases h with
  | leaf _ _ _ _ hleaf => exact hleaf i hi hb
  | branch _ m i b hne hi' _ _ =>
    have hpos := List.length_pos_iff.2 hne
    rw [List.length_append] at hlen
    omega

/-- An octet with bits after it leads to a branch. -/
theorem Lut.LeadsTo.entry_branch {i : List Bool} (h : t.LeadsTo sym l (i ++ b)) (hi : i.length = 8) (hne : b ≠ []) :
    ∃ m, t.entry? l (natOfBits i) = some (.branch m) ∧ t.LeadsTo sym m b := by
  generalize hc : i ++ b = c at h
  cases h with
  | leaf _ _ _ hlen _ =>
    have hpos := List.length_pos_iff.2 hne
    rw [← hc, List.length_append] at hlen
    omega
  | branch _ m j d _ hj hbranch hd =>
    obtain ⟨rfl, rfl⟩ := List.append_inj hc (hi.trans hj.symm)
    exact ⟨m, hbranch, hd⟩

/-- A walk along the first octets of a code leaves the rest of it to go. -/
theorem Lut.LeadsTo.of_walk {p : List (BitVec 8)} {k : Nat} (h : t.LeadsTo sym l (bitsOfOctets p ++ b)) (hne : b ≠ [])
    (hw : t.walk l p = some k) : t.LeadsTo sym k b := by
  induction p generalizing l with
  | nil =>
    cases hw
    exact h
  | cons i p ih =>
    rw [bitsOfOctets_cons, List.append_assoc] at h
    obtain ⟨m, hm, hrest⟩ := h.entry_branch (bitsOfNat_length 8 _) (by simp [hne])
    rw [natOfBits_bitsOfNat, Nat.mod_eq_of_lt i.isLt] at hm
    rw [Lut.walk, hm] at hw
    exact ih hrest hw

end Sys2Proof.Machine
end

section
/-! The statements on the build, for every code table. -/
namespace Sys2Proof.Machine

/-- Settles O27. A placed code bars the codes comparable with it; and a collision is met only in the way of a code that
stands, as every entry comes from one. -/
theorem buildSucceedsIffPrefixFree : Obligations.BuildSucceedsIffPrefixFree := by
  refine fun codes hcodes => ⟨fun ⟨t, ht⟩ => prefixFree_of_placeAll_ok hcodes ht, fun hfree => ?_⟩
  exact placeAll_ok_of_prefixFree (fresh_labelled []) Layer.fresh_wf hcodes hfree (by simp)

/-- Settles O28. What stands in the table comes from a code, whose pattern begins with the prefix of the layer; and a
code with that prefix leads on from the layer. -/
theorem entryMeaning : Obligations.EntryMeaning := by
  intro codes t hcodes hbuild p l hw i
  obtain ⟨pre, hlab⟩ := build_labelled hcodes hbuild
  have hl : pre[l]? = some (bitsOfOctets p) := hlab.prefix_of_walk hlab.root hw
  have hindex : natOfBits (bitsOfNat 8 i.toNat) = i.toNat := by
    rw [natOfBits_bitsOfNat, Nat.mod_eq_of_lt i.isLt]
  have hlead {c : HuffCode} (hc : c ∈ codes) {b : List Bool} (hne : b ≠ []) (hpattern : c.pattern = bitsOfOctets p ++ b) :
      t.LeadsTo c.sym l b := (hpattern ▸ build_leadsTo hcodes hbuild hc).of_walk hne hw
  refine ⟨fun sym x => ⟨fun he => ?_, ?_⟩, ⟨?_, ?_⟩, fun m he => Lut.walk_concat hw he, ?_⟩
  · obtain ⟨q, hq, hcode⟩ := hlab.leaf l _ sym x he
    cases hl.symm.trans hq
    exact hcode
  · rintro ⟨c, hc, rfl, hpattern⟩
    have hlen : ((bitsOfNat 8 i.toNat).take (x.val + 1)).length = x.val + 1 := by simp
    have hx : Fin.ofNat 8 (x.val + 1 - 1) = x := Fin.ofNat_val_eq_self x
    have hleaf := (hlead hc (List.ne_nil_of_length_pos (by omega)) hpattern).entry_leaf (by omega)
      (bitsOfNat_length 8 i.toNat) (List.take_prefix _ _)
    rwa [hindex, hlen, hx] at hleaf
  · rintro ⟨m, he⟩
    obtain ⟨q, hq, -, c, hc, hpre, hlong⟩ := hlab.branch l _ m he
    cases hl.symm.trans hq
    exact ⟨c, hc, bitsOfOctets_concat p i ▸ hpre, by rwa [bitsOfOctets_length] at hlong⟩
  · rintro ⟨c, hc, ⟨b, hpattern⟩, hlong⟩
    rw [← hpattern, List.length_append, bitsOfOctets_length, List.length_append, List.length_singleton] at hlong
    rw [bitsOfOctets_concat, List.append_assoc] at hpattern
    have hne : b ≠ [] := List.ne_nil_of_length_pos (by omega)
    obtain ⟨m, hm, -⟩ := (hlead hc (by simp [hne]) hpattern.symm).entry_branch (bitsOfNat_length 8 _) hne
    exact ⟨m, hindex ▸ hm⟩
  · obtain ⟨e, he, -⟩ := Lut.wf_entry ((build_wf codes).1 t hbuild) (hlab.lt_of_prefix hl) i.isLt
    rw [he]
    cases e <;> simp

end Sys2Proof.Machine
end

section
/-! SUPPORT. Everything a command, a host move and a step can do, each said once, and what the parts of a command
change. -/
namespace Sys2Proof.Machine

variable {s t u : State}

/-! ### Decoding -/

/-- From `s` to `t` only the items of a decode have changed, `OUT` at its end, `RB` downward, and a fault raised is one
of the decoder's (R124, R126). -/
structure DecodeKeeps (s t : State) : Prop where
  frame : t = { s with rb := t.rb, lp := t.lp, hdone := t.hdone, out := t.out, fault := t.fault }
  out_grows : s.out <+: t.out
  rb_le : t.rb ≤ s.rb
  fault : t.fault = s.fault ∨ t.fault = some .lutNotBuilt ∨ t.fault = some .lutMiss ∨ t.fault = some .huffEos

theorem DecodeKeeps.refl (s : State) : DecodeKeeps s s := ⟨rfl, List.prefix_rfl, le_rfl, .inl rfl⟩

theorem DecodeKeeps.trans (h : DecodeKeeps s t) (h' : DecodeKeeps t u) : DecodeKeeps s u where
  frame := h'.frame.trans (by rw [h.frame])
  out_grows := h.out_grows.trans h'.out_grows
  rb_le := h'.rb_le.trans h.rb_le
  fault := h'.fault.elim (fun hsame => hsame ▸ h.fault) .inr

theorem DecodeStepTo.keeps (h : DecodeStepTo s t) : DecodeKeeps s t := by
  cases h with
  | notBuilt => exact ⟨rfl, List.prefix_rfl, le_rfl, .inr (.inl rfl)⟩
  | done => exact .refl s
  | exhausted => exact ⟨rfl, List.prefix_rfl, le_rfl, .inl rfl⟩
  | eosLeaf => exact ⟨rfl, List.prefix_rfl, le_rfl, .inr (.inr (.inr rfl))⟩
  | leaf => exact ⟨rfl, List.prefix_append _ _, Nat.sub_le _ _, .inl rfl⟩
  | lastBranch => exact ⟨rfl, List.prefix_rfl, Nat.sub_le _ _, .inl rfl⟩
  | branch => exact ⟨rfl, List.prefix_rfl, Nat.sub_le _ _, .inl rfl⟩
  | miss => exact ⟨rfl, List.prefix_rfl, le_rfl, .inr (.inr (.inl rfl))⟩

theorem decodeLoop_frame {fuel : Nat} (h : decodeLoop fuel s = .next t) : DecodeKeeps s t :=
  decodeLoop_keeps (P := DecodeKeeps s) (fun _ _ hkeeps _ _ hstep => hkeeps.trans hstep.keeps) (.refl s) h

/-! ### Decoding a varint -/

/-- From `s` to `t` only `IP`, `RESULT` and `FAULT` have changed, `IP` upward and inside `IN`, and `RESULT` only where no
fault was raised (R151). -/
structure VarintKeeps (s t : State) : Prop where
  frame : t = { s with ip := t.ip, result := t.result, fault := t.fault }
  ip_le : s.ip ≤ t.ip
  ip_inside : s.ip ≤ s.inLen → t.ip ≤ s.inLen
  fault : t.fault = s.fault ∨
    (t.result = s.result ∧ (t.fault = some .truncatedInput ∨ t.fault = some .varintOverflow))

theorem ContinuationTo.ip_le_length {rest : List Octet} {i acc : Nat} (h : ContinuationTo rest i acc s t) :
    t.ip ≤ s.ip + rest.length := by
  induction h with
  | truncated => exact le_rfl
  | overflow c rest => simp
  | last c rest => simp
  | more c rest i acc s t _ _ _ ih =>
    rw [State.advance_ip] at ih
    rw [List.length_cons]
    omega

/-- `VI_DEC` always answers a next state (R151). -/
theorem decodeVarint_keeps (m : Nat) (s : State) : ∃ t, decodeVarint m s = .next t ∧ VarintKeeps s t := by
  rcases decodeVarint_cases m s with ⟨-, heq⟩ | ⟨b0, rest, hsource, -, heq⟩ | ⟨b0, rest, hsource, -, heq⟩
  · exact ⟨_, heq, rfl, le_rfl, id, .inr ⟨rfl, .inl rfl⟩⟩
  · obtain ⟨-, -, hlt⟩ := State.source_eq_cons hsource
    exact ⟨_, heq, rfl, Nat.le_add_right _ _, fun _ => hlt, .inl rfl⟩
  · obtain ⟨t, ht, hto⟩ := decodeContinuation_cases rest 0 m (s.advance 1)
    obtain ⟨hframe, hip, hfault⟩ := hto.frame
    have hlength := State.inLen_eq_of_source hsource
    have hinside := hto.ip_le_length
    rw [State.advance_ip] at hip hinside
    exact ⟨t, heq.trans ht, hframe.trans rfl, by omega, by omega, hfault⟩

/-! ### Commands -/

/-- Everything a command can do when it answers a next state (R180): the refusal, the illegal operand, and an arm or two
for each command. -/
inductive ExecTo (s : State) : Instr → State → Prop where
  | refused (i : Instr) (c : FaultCause) (h : s.fault = some c) : ExecTo s i s
  | illegal (i : Instr) (hready : s.Ready) (hwf : i.wf = false) : ExecTo s i (s.raise .illegalCommand)
  | bcLoad (len : Value) (hready : s.Ready) (hfits : s.ip + len.toNat ≤ s.inLen) :
      ExecTo s (.bcLoad len) (s.loadCursor len.toNat)
  | bcLoadTruncated (len : Value) (hready : s.Ready) (hshort : s.inLen < s.ip + len.toNat) :
      ExecTo s (.bcLoad len) (s.raise .truncatedInput)
  | bcPeek (hready : s.Ready) : ExecTo s .bcPeek (s.setResult s.peek.toNat)
  | bcShift (n : BitVec 6) (hready : s.Ready) : ExecTo s (.bcShift n) (s.shift n.toNat)
  | bcRemain (hready : s.Ready) : ExecTo s .bcRemain (s.setResult s.rb)
  | hufBuild (hready : s.Ready) : ExecTo s .hufBuild (buildLut Config.huffCodes s)
  | hufStep (t : State) (hready : s.Ready) (h : DecodeStepTo s t) : ExecTo s .hufStep t
  | hufDecodeNotBuilt (len : Value) (hready : s.Ready) (hv : s.lutValid = false) :
      ExecTo s (.hufDecode len) (s.raise .lutNotBuilt)
  | hufDecodeTruncated (len : Value) (hready : s.Ready) (hv : s.lutValid = true) (hshort : s.inLen < s.ip + len.toNat) :
      ExecTo s (.hufDecode len) (s.raise .truncatedInput)
  | hufDecode (len : Value) (t : State) (hready : s.Ready) (hv : s.lutValid = true)
      (hfits : s.ip + len.toNat ≤ s.inLen) (h : decodeLoop (8 * len.toNat + 1) (s.loadCursor len.toNat) = .next t) :
      ExecTo s (.hufDecode len) t
  | viDec (n : BitVec 6) (t : State) (hready : s.Ready) (h : VarintKeeps s t) : ExecTo s (.viDec n) t
  | viEnc (n : BitVec 6) (flags : Octet) (value : Value) (hready : s.Ready) :
      ExecTo s (.viEnc n flags value) (s.emit (varintOctets (prefixMask n) flags value.toNat))

theorem exec_hufDecode_truncated (hready : s.Ready) (hv : s.lutValid = true) {len : Value}
    (hshort : s.inLen < s.ip + len.toNat) : exec (.hufDecode len) s = .next (s.raise .truncatedInput) := by
  rw [exec, execHufDecode, command_legal hready, if_pos hv, if_neg (mt (s.sourceHas_iff _).1 (Nat.not_le.2 hshort))]

theorem exec_hufDecode_fits (hready : s.Ready) (hv : s.lutValid = true) {len : Value}
    (hfits : s.ip + len.toNat ≤ s.inLen) :
    exec (.hufDecode len) s = decodeLoop (8 * len.toNat + 1) (s.loadCursor len.toNat) := by
  rw [exec, execHufDecode, command_legal hready, if_pos hv, if_pos ((s.sourceHas_iff _).2 hfits)]

/-- A command that answers a next state does one of these. -/
theorem exec_cases {i : Instr} (h : exec i s = .next t) : ExecTo s i t := by
  cases hfault : s.fault with
  | some c =>
    cases (exec_faulted hfault i).symm.trans h
    exact .refused i c hfault
  | none =>
    cases hwf : i.wf with
    | false =>
      cases (exec_of_not_wf hfault hwf).symm.trans h
      exact .illegal i hfault hwf
    | true =>
      cases i with
      | bcLoad len =>
        rcases Nat.lt_or_ge s.inLen (s.ip + len.toNat) with hshort | hfits
        · cases (exec_bcLoad_truncated hfault hshort).symm.trans h
          exact .bcLoadTruncated len hfault hshort
        · cases (exec_bcLoad_fits hfault hfits).symm.trans h
          exact .bcLoad len hfault hfits
      | bcPeek =>
        cases hcur : s.cursorLegal with
        | false => cases (exec_bcPeek_outside hfault hcur).symm.trans h
        | true =>
          cases (exec_bcPeek_legal hfault hcur).symm.trans h
          exact .bcPeek hfault
      | bcShift n =>
        cases (exec_bcShift_legal hfault hwf).symm.trans h
        exact .bcShift n hfault
      | bcRemain =>
        cases (exec_bcRemain hfault).symm.trans h
        exact .bcRemain hfault
      | hufBuild =>
        cases (exec_hufBuild hfault).symm.trans h
        exact .hufBuild hfault
      | hufStep => exact .hufStep t hfault (decodeStep_cases ((exec_hufStep hfault).symm.trans h))
      | hufDecode len =>
        cases hv : s.lutValid with
        | false =>
          cases (exec_hufDecode_notBuilt hfault hv len).symm.trans h
          exact .hufDecodeNotBuilt len hfault hv
        | true =>
          rcases Nat.lt_or_ge s.inLen (s.ip + len.toNat) with hshort | hfits
          · cases (exec_hufDecode_truncated hfault hv hshort).symm.trans h
            exact .hufDecodeTruncated len hfault hv hshort
          · exact .hufDecode len t hfault hv hfits ((exec_hufDecode_fits hfault hv hfits).symm.trans h)
      | viDec n =>
        obtain ⟨u, hu, hkeeps⟩ := decodeVarint_keeps (prefixMask n) s
        cases ((exec_viDec_legal hfault hwf).trans hu).symm.trans h
        exact .viDec n _ hfault hkeeps
      | viEnc n flags value =>
        cases (exec_viEnc_legal hfault hwf flags value).symm.trans h
        exact .viEnc n flags value hfault

/-! ### Host moves and steps -/

/-- Everything a host move can do when it answers a next state (R215). -/
inductive PerformTo (s : State) : HostMove → State → Prop where
  | hardReset : PerformTo s .hardReset s.hardReset
  | softReset : PerformTo s .softReset s.softReset
  | loadInput (d : List Octet) (hready : s.Ready) : PerformTo s (.loadInput d) (s.loadInput d)
  | ignored (m : HostMove) (c : FaultCause) (h : s.fault = some c) : PerformTo s m s
  | illegal (w : CmdWord) (hready : s.Ready) : PerformTo s (.issue w) (s.raise .illegalCommand)
  | command (w : CmdWord) (i : Instr) (t : State) (h : ExecTo s i t) : PerformTo s (.issue w) t
  | read (m : HostMove) (r : Reply) : PerformTo s m (s.reply r)

theorem perform_cases {m : HostMove} (h : perform m s = .next t) : PerformTo s m t := by
  cases m with
  | hardReset =>
    cases h
    exact .hardReset
  | softReset =>
    cases h
    exact .softReset
  | loadInput d =>
    rcases perform_loadInput_cases d s with ⟨hready, heq⟩ | ⟨⟨c, hc⟩, heq⟩ <;> cases heq.symm.trans h
    · exact .loadInput d hready
    · exact .ignored _ c hc
  | issue w =>
    rcases issueCommand_cases w s with ⟨i, -, heq⟩ | ⟨-, c, -, hc, heq⟩ | ⟨-, -, hready, heq⟩
    · exact .command w i t (exec_cases (heq.symm.trans h))
    · cases heq.symm.trans h
      exact .ignored _ c hc
    · cases heq.symm.trans h
      exact .illegal w hready
  | readResult =>
    cases h
    exact .read _ _
  | readStatus =>
    cases h
    exact .read _ _
  | readOut =>
    cases h
    exact .read _ _

/-- A step that answers a next state is idle, or a host move. -/
theorem step_next_cases (h : step s = .next t) :
    t = s ∨ ∃ m rest, s.pending = m :: rest ∧ PerformTo (s.withPending rest) m t := by
  rcases step_cases s with ⟨-, heq⟩ | ⟨m, rest, hpending, heq⟩
  · cases heq.symm.trans h
    exact .inl rfl
  · exact .inr ⟨m, rest, hpending, perform_cases (heq.symm.trans h)⟩

/-! ### What every command keeps -/

/-- What no command changes: `IN`, the octets already in `OUT`, and a table that is built (R28, R60, R61). The host's
queue is the model's own. -/
structure CommandKeeps (s t : State) : Prop where
  inBuf_eq : t.inBuf = s.inBuf
  ip_le : s.ip ≤ t.ip
  out_grows : s.out <+: t.out
  pending_eq : t.pending = s.pending
  table_eq : s.lutValid = true → t.lut = s.lut ∧ t.lutValid = true

theorem CommandKeeps.refl (s : State) : CommandKeeps s s :=
  ⟨rfl, le_rfl, List.prefix_rfl, rfl, fun hv => ⟨rfl, hv⟩⟩

theorem DecodeKeeps.commandKeeps (h : DecodeKeeps s t) : CommandKeeps s t where
  inBuf_eq := by rw [h.frame]
  ip_le := by rw [h.frame]
  out_grows := h.out_grows
  pending_eq := by rw [h.frame]
  table_eq hv := by
    rw [h.frame]
    exact ⟨rfl, hv⟩

theorem VarintKeeps.commandKeeps (h : VarintKeeps s t) : CommandKeeps s t where
  inBuf_eq := by rw [h.frame]
  ip_le := h.ip_le
  out_grows := by rw [h.frame]
  pending_eq := by rw [h.frame]
  table_eq hv := by
    rw [h.frame]
    exact ⟨rfl, hv⟩

/-- A build changes the table, `LUT_VALID` and `FAULT` only, and nothing of a table that is built (R123). -/
theorem buildLut_frame (codes : CodeTable) (s : State) : buildLut codes s =
    { s with
      lut := (buildLut codes s).lut, lutValid := (buildLut codes s).lutValid, fault := (buildLut codes s).fault } := by
  rcases buildLut_cases codes s with ⟨-, heq⟩ | ⟨-, u, -, heq⟩ | ⟨-, u, -, heq⟩ <;> rw [heq] <;> rfl

theorem buildLut_commandKeeps (codes : CodeTable) (s : State) : CommandKeeps s (buildLut codes s) where
  inBuf_eq := by rw [buildLut_frame]
  ip_le := by rw [buildLut_frame]
  out_grows := by rw [buildLut_frame]
  pending_eq := by rw [buildLut_frame]
  table_eq hv := by
    rw [buildLut_valid hv]
    exact ⟨rfl, hv⟩

theorem loadCursor_commandKeeps (s : State) (len : Nat) : CommandKeeps s (s.loadCursor len) :=
  ⟨rfl, Nat.le_add_right _ _, List.prefix_rfl, rfl, fun hv => ⟨rfl, hv⟩⟩

theorem CommandKeeps.trans (h : CommandKeeps s t) (h' : CommandKeeps t u) : CommandKeeps s u where
  inBuf_eq := h'.inBuf_eq.trans h.inBuf_eq
  ip_le := h.ip_le.trans h'.ip_le
  out_grows := h.out_grows.trans h'.out_grows
  pending_eq := h'.pending_eq.trans h.pending_eq
  table_eq hv :=
    have ⟨hlut, hv'⟩ := h.table_eq hv
    have ⟨hlut', hv''⟩ := h'.table_eq hv'
    ⟨hlut'.trans hlut, hv''⟩

theorem ExecTo.keeps {i : Instr} (h : ExecTo s i t) : CommandKeeps s t := by
  cases h with
  | refused => exact .refl s
  | bcLoad len => exact loadCursor_commandKeeps s _
  | hufBuild => exact buildLut_commandKeeps _ s
  | hufStep _ _ hstep => exact hstep.keeps.commandKeeps
  | hufDecode len _ _ _ _ hloop =>
    exact (loadCursor_commandKeeps s _).trans (decodeLoop_frame hloop).commandKeeps
  | viDec _ _ _ hkeeps => exact hkeeps.commandKeeps
  | viEnc => exact ⟨rfl, le_rfl, List.prefix_append _ _, rfl, fun hv => ⟨rfl, hv⟩⟩
  | illegal | bcLoadTruncated | bcPeek | bcShift | bcRemain | hufDecodeNotBuilt | hufDecodeTruncated =>
    exact ⟨rfl, le_rfl, List.prefix_rfl, rfl, fun hv => ⟨rfl, hv⟩⟩

end Sys2Proof.Machine
end

section
/-! The statements on what each command changes and what it leaves alone. -/
namespace Sys2Proof.Machine

variable {s t : State}

/-! ### Reads of a stream that has grown, and of items that have not changed -/

/-- What was emitted before reads as before when the stream has grown (R28). -/
theorem readOut_of_prefix (h : s.out <+: t.out) {a : Nat} (ha : a < s.out.length) : t.readOut a = s.readOut a := by
  obtain ⟨os, hos⟩ := h
  rw [State.readOut, State.readOut, ← hos, List.getElem?_append_left ha]

/-- Past the octets emitted the stream reads as before: there is nothing. -/
theorem readOut_emit_past (s : State) (os : List Octet) {a : Nat} (ha : s.out.length + os.length ≤ a) :
    (s.emit os).readOut a = s.readOut a := by
  rw [State.readOut, State.readOut, List.getElem?_eq_none (by rw [State.emit_out, List.length_append]; exact ha),
    List.getElem?_eq_none (by omega)]

/-- From `s` to `t` the streams and the table have stayed. -/
structure SameStores (s t : State) : Prop where
  inBuf : t.inBuf = s.inBuf
  out : t.out = s.out
  lut : t.lut = s.lut

theorem SameStores.reads (h : SameStores s t) : (∀ a, t.readIn a = s.readIn a) ∧ (∀ a, t.readOut a = s.readOut a) ∧
    (∀ l a, t.lut.entry? l a = s.lut.entry? l a) := by
  refine ⟨State.readIn_of_inBuf h.inBuf, fun a => ?_, fun l a => by rw [h.lut]⟩
  rw [State.readOut, State.readOut, h.out]

/-! ### The cursor commands -/

theorem ExecTo.bcPeek_frame (h : ExecTo s .bcPeek t) : t = { s with result := t.result } := by
  cases h with
  | illegal _ _ hwf => cases hwf
  | refused => rfl
  | bcPeek => rfl

theorem ExecTo.bcRemain_frame (h : ExecTo s .bcRemain t) : t = { s with result := t.result } := by
  cases h with
  | illegal _ _ hwf => cases hwf
  | refused => rfl
  | bcRemain => rfl

theorem ExecTo.bcShift_frame {n : BitVec 6} (h : ExecTo s (.bcShift n) t) :
    t = { s with rb := t.rb, fault := t.fault } ∧ (legalShift n = true → t.fault = s.fault) := by
  cases h with
  | refused => exact ⟨rfl, fun _ => rfl⟩
  | bcShift => exact ⟨rfl, fun _ => rfl⟩
  | illegal _ _ hwf => exact ⟨rfl, fun hn => absurd (hn.symm.trans hwf) (by decide)⟩

theorem ExecTo.bcLoad_frame {len : Value} (h : ExecTo s (.bcLoad len) t) : t = { s with
    ip := t.ip, cb := t.cb, cl := t.cl, rb := t.rb, lp := t.lp, hdone := t.hdone, fault := t.fault } := by
  cases h with
  | illegal _ _ hwf => cases hwf
  | refused => rfl
  | bcLoad => rfl
  | bcLoadTruncated => rfl

theorem ExecTo.cursor_sameStores {i : Instr} (h : ExecTo s i t)
    (hi : i = .bcPeek ∨ i = .bcRemain ∨ (∃ n, i = .bcShift n) ∨ ∃ len, i = .bcLoad len) : SameStores s t := by
  rcases hi with rfl | rfl | ⟨n, rfl⟩ | ⟨len, rfl⟩
  · rw [h.bcPeek_frame]
    exact ⟨rfl, rfl, rfl⟩
  · rw [h.bcRemain_frame]
    exact ⟨rfl, rfl, rfl⟩
  · rw [h.bcShift_frame.1]
    exact ⟨rfl, rfl, rfl⟩
  · rw [h.bcLoad_frame]
    exact ⟨rfl, rfl, rfl⟩

/-- Settles O25, command by command. -/
theorem cursorFrame : Obligations.CursorFrame := by
  intro s t i hexec
  have h := exec_cases hexec
  refine ⟨?_, ?_, ?_, fun hi => (h.cursor_sameStores hi).reads⟩
  · rintro (rfl | rfl)
    · exact h.bcPeek_frame
    · exact h.bcRemain_frame
  · rintro n rfl
    exact h.bcShift_frame
  · rintro len rfl
    exact h.bcLoad_frame

/-! ### The Huffman commands -/

theorem ExecTo.hufBuild_frame (h : ExecTo s .hufBuild t) :
    t = { s with lut := t.lut, lutValid := t.lutValid, fault := t.fault } := by
  cases h with
  | illegal _ _ hwf => cases hwf
  | refused => rfl
  | hufBuild => exact buildLut_frame _ s

/-- An iteration stores at most the one octet at index `|OUT|` (R124). -/
theorem DecodeStepTo.readOut_eq (h : DecodeStepTo s t) {a : Nat} (ha : a ≠ s.out.length) :
    t.readOut a = s.readOut a := by
  cases h with
  | leaf _ _ _ _ sym =>
    rcases Nat.lt_or_gt_of_ne ha with hlt | hgt
    · exact readOut_of_prefix (List.prefix_append _ _) hlt
    · exact readOut_emit_past s [BitVec.ofNat 8 sym.val] hgt
  | notBuilt | done | exhausted | eosLeaf | lastBranch | branch | miss => rfl

theorem ExecTo.hufStep_frame (h : ExecTo s .hufStep t) :
    t = { s with rb := t.rb, lp := t.lp, hdone := t.hdone, out := t.out, fault := t.fault } ∧
      ∀ a, a ≠ s.out.length → t.readOut a = s.readOut a := by
  cases h with
  | illegal _ _ hwf => cases hwf
  | refused => exact ⟨rfl, fun _ _ => rfl⟩
  | hufStep _ _ hstep => exact ⟨hstep.keeps.frame, fun _ => hstep.readOut_eq⟩

theorem ExecTo.hufDecode_frame {len : Value} (h : ExecTo s (.hufDecode len) t) : t = { s with
    ip := t.ip, cb := t.cb, cl := t.cl, rb := t.rb, lp := t.lp, hdone := t.hdone, out := t.out, fault := t.fault } := by
  cases h with
  | illegal _ _ hwf => cases hwf
  | refused => rfl
  | hufDecodeNotBuilt => rfl
  | hufDecodeTruncated => rfl
  | hufDecode _ _ _ _ _ hloop =>
    rw [(decodeLoop_frame hloop).frame]
    rfl

/-- Settles O43. The parts of a decode change the decoder's items only; what is emitted goes behind what was. -/
theorem huffmanFrame : Obligations.HuffmanFrame := by
  intro s t i hexec
  have h := exec_cases hexec
  refine ⟨?_, ?_, ?_, fun _ => ?_, ?_, ?_⟩
  · rintro rfl
    exact h.hufBuild_frame
  · rintro rfl
    exact h.hufStep_frame
  · rintro len rfl
    exact h.hufDecode_frame
  · exact ⟨State.readIn_of_inBuf h.keeps.inBuf_eq, fun a => readOut_of_prefix h.keeps.out_grows⟩
  · rintro rfl a
    rw [h.hufBuild_frame]
    rfl
  · rintro (rfl | ⟨len, rfl⟩) l a
    · rw [h.hufStep_frame.1]
    · rw [h.hufDecode_frame]

/-! ### The varint commands -/

theorem ExecTo.viDec_frame {n : BitVec 6} (h : ExecTo s (.viDec n) t) :
    t = { s with ip := t.ip, result := t.result, fault := t.fault } := by
  cases h with
  | refused => rfl
  | illegal => rfl
  | viDec _ _ _ hkeeps => exact hkeeps.frame

theorem ExecTo.viEnc_frame {n : BitVec 6} {f : Octet} {v : Value} (h : ExecTo s (.viEnc n f v) t) :
    t = { s with out := t.out, fault := t.fault } ∧ (legalPrefix n = true → t.fault = s.fault) ∧
      ∀ a, (a < s.out.length ∨ s.out.length + (varintOctets (prefixMask n) f v.toNat).length ≤ a) →
        t.readOut a = s.readOut a := by
  cases h with
  | refused => exact ⟨rfl, fun _ => rfl, fun _ _ => rfl⟩
  | illegal _ _ hwf => exact ⟨rfl, fun hn => absurd (hn.symm.trans hwf) (by decide), fun _ _ => rfl⟩
  | viEnc =>
    refine ⟨rfl, fun _ => rfl, fun a ha => ?_⟩
    rcases ha with hlt | hge
    · exact readOut_of_prefix (List.prefix_append _ _) hlt
    · exact readOut_emit_past s _ hge

/-- Settles O50, command by command. -/
theorem varintFrame : Obligations.VarintFrame := by
  intro s t i hexec
  have h := exec_cases hexec
  refine ⟨?_, ?_, ?_⟩
  · rintro n rfl
    refine ⟨h.viDec_frame, fun a => ?_⟩
    rw [h.viDec_frame]
    rfl
  · rintro n f v rfl
    exact h.viEnc_frame
  · rintro (⟨n, rfl⟩ | ⟨n, f, v, rfl⟩)
    · rw [h.viDec_frame]
      exact ⟨fun _ => rfl, fun _ _ => rfl⟩
    · rw [h.viEnc_frame.1]
      exact ⟨fun _ => rfl, fun _ _ => rfl⟩

end Sys2Proof.Machine
end

section
/-! The varint unit on a state whose cursor and table are others, and the statement on it (R150). -/
namespace Sys2Proof.Machine

/-- The state with another cursor, another table and another state of the decoder. -/
def State.withCursorAndTable (cb cl rb lp : Nat) (hdone lutValid : Bool) (lut : Lut) (s : State) : State :=
  { s with cb := cb, cl := cl, rb := rb, lp := lp, hdone := hdone, lutValid := lutValid, lut := lut }

/-- The same answer in a state that `f` has changed. -/
def mapNext (f : State → State) (r : Result) : Result := andThen r fun s => .next (f s)

variable (cb cl rb lp : Nat) (hdone lutValid : Bool) (lut : Lut) (s : State)

theorem decodeContinuation_withCursorAndTable (rest : List Octet) (i acc : Nat) :
    decodeContinuation rest i acc (s.withCursorAndTable cb cl rb lp hdone lutValid lut) =
      mapNext (State.withCursorAndTable cb cl rb lp hdone lutValid lut) (decodeContinuation rest i acc s) := by
  induction rest generalizing i acc s with
  | nil => rfl
  | cons c rest ih =>
    rw [decodeContinuation, decodeContinuation]
    split
    · split
      · exact ih (s.advance 1) _ _
      · rfl
    · rfl

theorem decodeVarint_withCursorAndTable (m : Nat) :
    decodeVarint m (s.withCursorAndTable cb cl rb lp hdone lutValid lut) =
      mapNext (State.withCursorAndTable cb cl rb lp hdone lutValid lut) (decodeVarint m s) := by
  have hsource : (s.withCursorAndTable cb cl rb lp hdone lutValid lut).source = s.source := rfl
  rw [decodeVarint, decodeVarint, hsource]
  cases s.source with
  | nil => rfl
  | cons b0 rest =>
    dsimp only
    split
    · rfl
    · exact decodeContinuation_withCursorAndTable cb cl rb lp hdone lutValid lut (s.advance 1) rest 0 m

/-- Settles O49. The loop of `VI_DEC` looks at the source only, and `VI_ENC` at its operands. -/
theorem varintIgnoresCursorAndTable : Obligations.VarintIgnoresCursorAndTable := by
  intro s t i cb cl rb lp hdone lutValid lut hi hexec
  change exec i (s.withCursorAndTable cb cl rb lp hdone lutValid lut) =
    .next (t.withCursorAndTable cb cl rb lp hdone lutValid lut)
  cases hfault : s.fault with
  | some c =>
    cases (exec_faulted hfault i).symm.trans hexec
    exact exec_faulted (s := s.withCursorAndTable cb cl rb lp hdone lutValid lut) hfault i
  | none =>
    have hready : (s.withCursorAndTable cb cl rb lp hdone lutValid lut).Ready := hfault
    cases hwf : i.wf with
    | false =>
      cases (exec_of_not_wf hfault hwf).symm.trans hexec
      exact exec_of_not_wf hready hwf
    | true =>
      rcases hi with ⟨n, rfl⟩ | ⟨n, f, v, rfl⟩
      · rw [exec_viDec_legal hfault hwf] at hexec
        rw [exec_viDec_legal hready hwf, decodeVarint_withCursorAndTable, hexec]
        rfl
      · cases (exec_viEnc_legal hfault hwf f v).symm.trans hexec
        exact exec_viEnc_legal hready hwf f v

end Sys2Proof.Machine
end

section
/-! The statements on faults, the streams and `RESULT`, for every command and every step. -/
namespace Sys2Proof.Machine

/-- Settles O51: the arms that raise, each with its cause. -/
theorem faultCauses : Obligations.FaultCauses := by
  refine ⟨⟨rfl, rfl, rfl, rfl, rfl, rfl, rfl⟩, fun s t i c hready hexec hc => ?_⟩
  have hnew {u : State} (hu : u.fault = s.fault) : u.fault ≠ some c := by simp [hu, hready]
  cases exec_cases hexec with
  | refused => exact absurd hc (hnew rfl)
  | illegal _ _ hwf => exact .inl ⟨(Option.some.inj hc).symm, hwf⟩
  | bcLoad | bcPeek | bcShift | bcRemain | viEnc => exact absurd hc (hnew rfl)
  | bcLoadTruncated => exact .inr (Option.some.inj hc).symm
  | hufBuild =>
    rcases buildLut_cases Config.huffCodes s with ⟨-, heq⟩ | ⟨-, u, -, heq⟩ | ⟨-, u, -, heq⟩ <;> rw [heq] at hc
    · exact absurd hc (hnew rfl)
    · exact absurd hc (hnew rfl)
    · exact .inr (Option.some.inj hc).symm
  | hufStep _ _ hstep =>
    rcases hstep.keeps.fault with hsame | hraised
    · exact absurd hc (hnew hsame)
    · simpa [hc] using Or.inr hraised
  | hufDecodeNotBuilt => exact .inr (.inl (Option.some.inj hc).symm)
  | hufDecodeTruncated => exact .inr (.inr (.inl (Option.some.inj hc).symm))
  | hufDecode len _ _ _ _ hloop =>
    rcases (decodeLoop_frame hloop).fault with hsame | hraised
    · exact absurd hc (hnew hsame)
    · rw [hc] at hraised
      simp only [Option.some.injEq] at hraised
      exact .inr (hraised.imp_right .inr)
  | viDec _ _ _ hkeeps =>
    rcases hkeeps.fault with hsame | ⟨-, hraised⟩
    · exact absurd hc (hnew hsame)
    · simpa [hc] using Or.inr hraised

/-- Settles O53: a command lets `OUT` grow at its end only, and the other moves leave it or are resets. -/
theorem outIsAppendOnly : Obligations.OutIsAppendOnly := by
  intro s t hstep
  have hgrown {u : State} (h : s.out <+: u.out) : s.out <+: u.out ∧ ∀ a < s.out.length, u.readOut a = s.readOut a :=
    ⟨h, fun a => readOut_of_prefix h⟩
  rcases step_next_cases hstep with rfl | ⟨m, rest, hpending, hperform⟩
  · exact .inl (hgrown List.prefix_rfl)
  · cases hperform with
    | hardReset => exact .inr ⟨rfl, _, rest, hpending, rfl⟩
    | softReset => exact .inr ⟨rfl, _, rest, hpending, rfl⟩
    | command _ _ _ hexec => exact .inl (hgrown hexec.keeps.out_grows)
    | loadInput | ignored | illegal | read => exact .inl (hgrown List.prefix_rfl)

/-- Settles O54: every command keeps `IN`, and of the other moves LoadInput and the resets only replace it. -/
theorem inputIsStable : Obligations.InputIsStable := by
  refine ⟨fun s t i hexec => ?_, fun s t hstep => ?_⟩
  · obtain ⟨hin, hip, -⟩ := (exec_cases hexec).keeps
    exact ⟨hin, State.readIn_of_inBuf hin, hip⟩
  · rcases step_next_cases hstep with rfl | ⟨m, rest, hpending, hperform⟩
    · exact .inl rfl
    · cases hperform with
      | hardReset => exact .inr (.inr ⟨rfl, _, rest, hpending, rfl⟩)
      | softReset => exact .inr (.inr ⟨rfl, _, rest, hpending, rfl⟩)
      | loadInput d => exact .inr (.inl ⟨d, rest, hpending, rfl⟩)
      | command _ _ _ hexec => exact .inl hexec.keeps.inBuf_eq
      | ignored | illegal | read => exact .inl rfl

/-- Settles O55: the arms that write `RESULT` raise nothing. -/
theorem resultWriters : Obligations.ResultWriters := by
  intro s t i hexec
  cases exec_cases hexec with
  | bcPeek hready => exact .inr ⟨hready, .inl rfl⟩
  | bcRemain hready => exact .inr ⟨hready, .inr (.inl rfl)⟩
  | viDec n _ hready hkeeps =>
    rcases hkeeps.fault with hsame | ⟨hresult, -⟩
    · exact .inr ⟨hsame.trans hready, .inr (.inr ⟨n, rfl⟩)⟩
    · exact .inl hresult
  | hufBuild =>
    rw [buildLut_frame]
    exact .inl rfl
  | hufStep _ _ hstep =>
    rw [hstep.keeps.frame]
    exact .inl rfl
  | hufDecode _ _ _ _ _ hloop =>
    rw [(decodeLoop_frame hloop).frame]
    exact .inl rfl
  | refused | illegal | bcLoad | bcLoadTruncated | bcShift | hufDecodeNotBuilt | hufDecodeTruncated | viEnc =>
    exact .inl rfl

/-- Settles O16: only LoadInput changes `IN`, and a conforming host offers what fits. -/
theorem conformingHostBoundsInput : Obligations.ConformingHostBoundsInput := by
  refine ⟨fun s t hconf hstep => ?_, fun s => State.rb_lt_of_conforming⟩
  rcases step_next_cases hstep with rfl | ⟨m, rest, hpending, hperform⟩
  · exact hconf
  · have hmoves := hconf.movesAllowed
    rw [hpending, List.forall_mem_cons] at hmoves
    obtain ⟨hm, hrest⟩ := hmoves
    cases hperform with
    | hardReset => exact ⟨Nat.zero_le _, hrest⟩
    | softReset => exact ⟨Nat.zero_le _, hrest⟩
    | loadInput d => exact ⟨hm, hrest⟩
    | command _ _ _ hexec =>
      obtain ⟨hin, -, -, hqueue, -⟩ := hexec.keeps
      refine ⟨?_, hqueue ▸ hrest⟩
      rw [State.inLen, hin]
      exact hconf.inputBounded
    | ignored | illegal | read => exact ⟨hconf.inputBounded, hrest⟩

/-- Settles O31: no command changes a table that is built, and of the other moves a hard reset only. -/
theorem tableImmutableOnceBuilt : Obligations.TableImmutableOnceBuilt := by
  intro s t hv hstep hnot
  rcases step_next_cases hstep with rfl | ⟨m, rest, hpending, hperform⟩
  · exact ⟨rfl, hv⟩
  · cases hperform with
    | hardReset => exact absurd hpending (hnot rest)
    | command _ _ _ hexec => exact hexec.keeps.table_eq hv
    | softReset | loadInput | ignored | illegal | read => exact ⟨rfl, hv⟩

end Sys2Proof.Machine
end

section
/-! SUPPORT. The invariants of R26 under each update of the state, each iteration of the decode loop and each command;
and the commands, loop included, that answer a next state wherever the invariants hold. -/
namespace Sys2Proof.Machine

variable {s t : State}

/-! ### Updates -/

/-- The invariants do not speak of `OUT`, `RESULT`, `FAULT` or the host's side. -/
theorem State.Inv.of_same_items (h : s.Inv) (ht : t = { s with
    out := t.out, result := t.result, fault := t.fault, pending := t.pending, replies := t.replies }) : t.Inv := by
  rw [ht]
  exact ⟨h.cursorInside, h.bitsInside, h.pointerInside, h.layerAllocated, h.rootWhenDone, h.rootWhenNotBuilt, h.tableWf⟩

theorem State.Inv.root_allocated (h : s.Inv) : 0 < s.lut.length := Nat.zero_lt_of_lt h.layerAllocated

theorem State.Inv.shift (h : s.Inv) (n : Nat) : (s.shift n).Inv where
  cursorInside := h.cursorInside
  bitsInside := (Nat.sub_le _ _).trans h.bitsInside
  pointerInside := h.pointerInside
  layerAllocated := h.layerAllocated
  rootWhenDone := h.rootWhenDone
  rootWhenNotBuilt := h.rootWhenNotBuilt
  tableWf := h.tableWf

theorem State.Inv.loadCursor (h : s.Inv) {len : Nat} (hfits : s.ip + len ≤ s.inLen) : (s.loadCursor len).Inv where
  cursorInside := hfits
  bitsInside := le_rfl
  pointerInside := hfits
  layerAllocated := h.root_allocated
  rootWhenDone _ := rfl
  rootWhenNotBuilt _ := ⟨rfl, rfl⟩
  tableWf := h.tableWf

theorem State.Inv.stopDecode (h : s.Inv) (hv : s.lutValid = true) : s.stopDecode.Inv where
  cursorInside := h.cursorInside
  bitsInside := h.bitsInside
  pointerInside := h.pointerInside
  layerAllocated := h.root_allocated
  rootWhenDone _ := rfl
  rootWhenNotBuilt hv' := absurd (hv.symm.trans hv') (by decide)
  tableWf := h.tableWf

theorem State.Inv.setLp (h : s.Inv) (hv : s.lutValid = true) (hd : s.hdone = false) {l : Nat} (hl : l < s.lut.length) :
    (s.setLp l).Inv where
  cursorInside := h.cursorInside
  bitsInside := h.bitsInside
  pointerInside := h.pointerInside
  layerAllocated := hl
  rootWhenDone hd' := absurd (hd.symm.trans hd') (by decide)
  rootWhenNotBuilt hv' := absurd (hv.symm.trans hv') (by decide)
  tableWf := h.tableWf

theorem State.Inv.moved (h : s.Inv) (ht : t = { s with ip := t.ip, result := t.result, fault := t.fault })
    (hip : t.ip ≤ s.inLen) : t.Inv := by
  rw [ht]
  exact ⟨h.cursorInside, h.bitsInside, hip, h.layerAllocated, h.rootWhenDone, h.rootWhenNotBuilt, h.tableWf⟩

/-- Another table of the right form, while none is built, is looked up from its root (R123). -/
theorem State.Inv.setLut (h : s.Inv) (hv : s.lutValid = false) {u : Lut} (hu : Lut.wf u = true) : (s.setLut u).Inv where
  cursorInside := h.cursorInside
  bitsInside := h.bitsInside
  pointerInside := h.pointerInside
  layerAllocated := by
    rw [show (s.setLut u).lp = 0 from (h.rootWhenNotBuilt hv).1]
    exact List.length_pos_iff.2 ((Lut.wf_iff u).1 hu).1
  rootWhenDone := h.rootWhenDone
  rootWhenNotBuilt := h.rootWhenNotBuilt
  tableWf := hu

theorem State.Inv.markBuilt (h : s.Inv) : s.markBuilt.Inv where
  cursorInside := h.cursorInside
  bitsInside := h.bitsInside
  pointerInside := h.pointerInside
  layerAllocated := h.layerAllocated
  rootWhenDone := h.rootWhenDone
  rootWhenNotBuilt hv := nomatch hv
  tableWf := h.tableWf

/-- With everything of a reset but the table, the invariants ask for the form of the table only (R40). -/
theorem State.Inv.of_emptied (ht : t = { State.reset with
    lut := t.lut, lutValid := t.lutValid, inBuf := t.inBuf, out := t.out, result := t.result, fault := t.fault,
    pending := t.pending, replies := t.replies }) (hwf : Lut.wf t.lut = true) : t.Inv := by
  rw [ht]
  exact {
    cursorInside := Nat.zero_le _
    bitsInside := le_rfl
    pointerInside := Nat.zero_le _
    layerAllocated := List.length_pos_iff.2 ((Lut.wf_iff _).1 hwf).1
    rootWhenDone := fun _ => rfl
    rootWhenNotBuilt := fun _ => ⟨rfl, rfl⟩
    tableWf := hwf }

/-! ### Commands -/

theorem State.Inv.decodeStep (h : s.Inv) (hstep : DecodeStepTo s t) : t.Inv := by
  cases hstep with
  | notBuilt | eosLeaf | miss => exact h.of_same_items rfl
  | done => exact h
  | exhausted hv => exact h.stopDecode hv
  | leaf hv hd _ _ sym extra =>
    have hemit : (s.emit [BitVec.ofNat 8 sym.val]).Inv := h.of_same_items rfl
    exact (hemit.shift (extra.val + 1)).setLp hv hd h.root_allocated
  | lastBranch hv => exact (h.shift s.rb).stopDecode hv
  | branch hv hd _ _ m he =>
    obtain ⟨e, he', hwithin⟩ := Lut.wf_entry h.tableWf h.layerAllocated s.peek.isLt
    cases he.symm.trans he'
    exact (h.shift 8).setLp hv hd (hwithin m rfl).2

theorem State.Inv.buildLut (h : s.Inv) (codes : CodeTable) : (buildLut codes s).Inv := by
  rcases buildLut_cases codes s with ⟨-, heq⟩ | ⟨hv, u, hu, heq⟩ | ⟨hv, u, hu, heq⟩ <;> rw [heq]
  · exact h
  · exact (h.setLut hv ((build_wf codes).1 u hu)).markBuilt
  · exact (h.setLut hv ((build_wf codes).2 u hu)).of_same_items rfl

theorem State.Inv.exec {i : Instr} (h : s.Inv) (hexec : ExecTo s i t) : t.Inv := by
  cases hexec with
  | refused => exact h
  | illegal | bcLoadTruncated | bcPeek | bcRemain | hufDecodeNotBuilt | hufDecodeTruncated | viEnc =>
    exact h.of_same_items rfl
  | bcLoad _ _ hfits => exact h.loadCursor hfits
  | bcShift n => exact h.shift n.toNat
  | hufBuild => exact h.buildLut Config.huffCodes
  | hufStep _ _ hstep => exact h.decodeStep hstep
  | hufDecode _ _ _ _ hfits hloop =>
    exact decodeLoop_keeps (fun _ _ hinv _ _ hstep => hinv.decodeStep hstep) (h.loadCursor hfits) hloop
  | viDec _ _ _ hkeeps => exact h.moved hkeeps.frame (hkeeps.ip_inside h.pointerInside)

/-! ### A next state -/

theorem State.Inv.cursorLegal (h : s.Inv) : s.cursorLegal = true :=
  s.cursorLegal_iff.2 ⟨h.cursorInside, h.bitsInside⟩

/-- The cursor and the layer that an iteration reads exist (R51). -/
theorem State.Inv.decodeStep_next (h : s.Inv) : ∃ t, Machine.decodeStep s = .next t := by
  by_contra hstop
  rw [not_exists] at hstop
  rcases decodeStep_stops hstop with hcur | hentry
  · cases h.cursorLegal.symm.trans hcur
  · obtain ⟨e, he, -⟩ := Lut.wf_entry h.tableWf h.layerAllocated s.peek.isLt
    cases he.symm.trans hentry

theorem State.Inv.decodeLoop_next (h : s.Inv) (fuel : Nat) : ∃ t, decodeLoop fuel s = .next t := by
  induction fuel generalizing s with
  | zero => exact ⟨s, rfl⟩
  | succ fuel ih =>
    obtain ⟨u, hu⟩ := h.decodeStep_next
    rw [decodeLoop, hu]
    split
    · exact ⟨s, rfl⟩
    · exact ih (h.decodeStep (decodeStep_cases hu))

theorem State.Inv.exec_next (h : s.Inv) (i : Instr) : ∃ t, Machine.exec i s = .next t := by
  cases hfault : s.fault with
  | some c => exact ⟨s, exec_faulted hfault i⟩
  | none =>
    cases hwf : i.wf with
    | false => exact ⟨_, exec_of_not_wf hfault hwf⟩
    | true =>
      cases i with
      | bcLoad len =>
        rcases Nat.lt_or_ge s.inLen (s.ip + len.toNat) with hshort | hfits
        · exact ⟨_, exec_bcLoad_truncated hfault hshort⟩
        · exact ⟨_, exec_bcLoad_fits hfault hfits⟩
      | bcPeek => exact ⟨_, exec_bcPeek_legal hfault h.cursorLegal⟩
      | bcShift n => exact ⟨_, exec_bcShift_legal hfault hwf⟩
      | bcRemain => exact ⟨_, exec_bcRemain hfault⟩
      | hufBuild => exact ⟨_, exec_hufBuild hfault⟩
      | hufStep =>
        rw [exec_hufStep hfault]
        exact h.decodeStep_next
      | hufDecode len =>
        cases hv : s.lutValid with
        | false => exact ⟨_, exec_hufDecode_notBuilt hfault hv len⟩
        | true =>
          rcases Nat.lt_or_ge s.inLen (s.ip + len.toNat) with hshort | hfits
          · exact ⟨_, exec_hufDecode_truncated hfault hv hshort⟩
          · rw [exec_hufDecode_fits hfault hv hfits]
            exact (h.loadCursor hfits).decodeLoop_next _
      | viDec n =>
        rw [exec_viDec_legal hfault hwf]
        obtain ⟨t, ht, -⟩ := decodeVarint_keeps (prefixMask n) s
        exact ⟨t, ht⟩
      | viEnc n flags value => exact ⟨_, exec_viEnc_legal hfault hwf flags value⟩

theorem State.Inv.perform_next (h : s.Inv) (m : HostMove) : ∃ t, perform m s = .next t := by
  cases m with
  | loadInput d =>
    rcases perform_loadInput_cases d s with ⟨-, heq⟩ | ⟨-, heq⟩ <;> exact ⟨_, heq⟩
  | issue w =>
    rw [perform]
    rcases issueCommand_cases w s with ⟨i, -, heq⟩ | ⟨-, -, -, -, heq⟩ | ⟨-, -, -, heq⟩
    · rw [heq]
      exact h.exec_next i
    · exact ⟨_, heq⟩
    · exact ⟨_, heq⟩
  | hardReset | softReset | readResult | readStatus | readOut => exact ⟨_, rfl⟩

theorem State.Inv.withPending (h : s.Inv) (ms : List HostMove) : (s.withPending ms).Inv := h.of_same_items rfl

end Sys2Proof.Machine
end

section
/-! The statements on the invariants of R26. -/
namespace Sys2Proof.Machine

/-- Settles O14: resets and LoadInput empty the cursor, every command keeps the invariants, and the other moves do not
touch the items they speak of. -/
theorem stepKeepsInvariants : Obligations.StepKeepsInvariants := by
  intro s t h hstep
  rcases step_next_cases hstep with rfl | ⟨m, rest, -, hperform⟩
  · exact h
  · have hmove := h.withPending rest
    cases hperform with
    | hardReset => exact .of_emptied rfl Layer.fresh_wf
    | softReset => exact .of_emptied rfl h.tableWf
    | loadInput => exact .of_emptied rfl h.tableWf
    | command _ _ _ hexec => exact hmove.exec hexec
    | ignored | illegal | read => exact hmove.of_same_items rfl

/-- Settles O15: the cursor and the layer that a command reads exist, loop included, as the loop keeps the
invariants. -/
theorem noStepStops : Obligations.NoStepStops := by
  refine fun s h => ⟨?_, h.exec_next, fun w c hc => issueCommand_faulted hc w⟩
  rcases step_cases s with ⟨-, hidle⟩ | ⟨m, rest, -, hmove⟩
  · exact ⟨s, hidle⟩
  · rw [hmove]
    exact (h.withPending rest).perform_next m

end Sys2Proof.Machine
end

section
/-! The statements on the supplied table in the block: the snapshot, and the causes it rules out. -/
namespace Sys2Proof.Machine

variable {s t : State}

/-! ### The snapshot -/

theorem State.TableIsSnapshot.of_same_table (h : s.TableIsSnapshot) (hlut : t.lut = s.lut)
    (hv : t.lutValid = s.lutValid) : t.TableIsSnapshot := fun hbuilt => hlut ▸ h (hv.symm.trans hbuilt)

theorem State.TableIsSnapshot.buildLut (h : s.TableIsSnapshot) : (buildLut Config.huffCodes s).TableIsSnapshot := by
  rcases buildLut_cases Config.huffCodes s with ⟨-, heq⟩ | ⟨-, u, hu, heq⟩ | ⟨hv, u, -, heq⟩ <;> rw [heq]
  · exact h
  · exact fun _ => hu
  · exact fun hbuilt => absurd (hv.symm.trans hbuilt) (by decide)

/-- Every command but the build leaves the table, and the build installs the snapshot. -/
theorem State.TableIsSnapshot.exec {i : Instr} (h : s.TableIsSnapshot) (hexec : ExecTo s i t) : t.TableIsSnapshot := by
  cases hexec with
  | hufBuild => exact h.buildLut
  | hufStep _ _ hstep =>
    rw [hstep.keeps.frame]
    exact h.of_same_table rfl rfl
  | hufDecode _ _ _ _ _ hloop =>
    rw [(decodeLoop_frame hloop).frame]
    exact h.of_same_table rfl rfl
  | viDec _ _ _ hkeeps =>
    rw [hkeeps.frame]
    exact h.of_same_table rfl rfl
  | refused | illegal | bcLoad | bcLoadTruncated | bcPeek | bcShift | bcRemain | hufDecodeNotBuilt
  | hufDecodeTruncated | viEnc => exact h.of_same_table rfl rfl

/-- Settles O32: a hard reset leaves no table built, and the other moves keep it or build it from the supplied codes. -/
theorem stepKeepsSnapshot : Obligations.StepKeepsSnapshot := by
  intro s t h hstep
  rcases step_next_cases hstep with rfl | ⟨m, rest, -, hperform⟩
  · exact h
  · cases hperform with
    | hardReset => exact Bool.noConfusion
    | command _ _ _ hexec =>
      have hmove : (s.withPending rest).TableIsSnapshot := h
      exact hmove.exec hexec
    | softReset | loadInput | ignored | illegal | read => exact h.of_same_table rfl rfl

/-! ### Causes that the supplied table rules out -/

/-- The supplied table has no `Empty` entry (R122). -/
theorem entry?_ne_empty {u : Lut} (hu : build Config.huffCodes = .ok u) (l i : Nat) :
    u.entry? l i ≠ some .empty := by
  obtain ⟨v, hv, -, hfull, -⟩ := suppliedTable
  obtain rfl : v = u := Except.ok.inj (hv.symm.trans hu)
  intro he
  have hl := Lut.lt_length_of_entry? he
  rw [Lut.entry?, List.getElem?_eq_getElem hl] at he
  exact (hfull _ (List.getElem_mem hl)).2 (List.mem_of_getElem? he)

/-- `FAULT` does not hold one of the two causes that the supplied table rules out. -/
def State.NoMiss (s : State) : Prop := s.fault ≠ some .lutMiss ∧ s.fault ≠ some .buildCollision

theorem State.NoMiss.of_fault_eq {c : FaultCause} (h : t.fault = some c) (hmiss : c ≠ .lutMiss)
    (hcollision : c ≠ .buildCollision) : t.NoMiss := by
  rw [State.NoMiss, h]
  exact ⟨fun heq => hmiss (Option.some.inj heq), fun heq => hcollision (Option.some.inj heq)⟩

theorem State.NoMiss.of_same_fault (h : s.NoMiss) (heq : t.fault = s.fault) : t.NoMiss := by
  rwa [State.NoMiss, heq]

theorem State.NoMiss.decodeStep (h : s.NoMiss) (hsnap : s.TableIsSnapshot) (hstep : DecodeStepTo s t) : t.NoMiss := by
  cases hstep with
  | notBuilt => exact .of_fault_eq rfl (by decide) (by decide)
  | eosLeaf => exact .of_fault_eq rfl (by decide) (by decide)
  | miss hv _ _ _ he => exact absurd he (entry?_ne_empty (hsnap hv) _ _)
  | done | exhausted | leaf | lastBranch | branch => exact h.of_same_fault rfl

theorem State.NoMiss.decodeLoop {fuel : Nat} (h : s.NoMiss) (hsnap : s.TableIsSnapshot)
    (hloop : decodeLoop fuel s = .next t) : t.NoMiss := by
  refine (decodeLoop_keeps (P := fun u => u.TableIsSnapshot ∧ u.NoMiss) (fun u v hu _ _ hstep => ?_) ⟨hsnap, h⟩ hloop).2
  obtain ⟨husnap, hclean⟩ := hu
  refine ⟨?_, hclean.decodeStep husnap hstep⟩
  rw [hstep.keeps.frame]
  exact husnap.of_same_table rfl rfl

theorem State.NoMiss.exec {i : Instr} (h : s.NoMiss) (hsnap : s.TableIsSnapshot) (hexec : ExecTo s i t) : t.NoMiss := by
  cases hexec with
  | illegal | bcLoadTruncated | hufDecodeNotBuilt | hufDecodeTruncated =>
    exact .of_fault_eq rfl (by decide) (by decide)
  | refused | bcLoad | bcPeek | bcShift | bcRemain | viEnc => exact h.of_same_fault rfl
  | hufBuild =>
    obtain ⟨u, hu, -⟩ := suppliedTable
    cases hv : s.lutValid with
    | true =>
      rw [buildLut_valid hv]
      exact h
    | false =>
      rw [buildLut_ok hv hu]
      exact h.of_same_fault rfl
  | hufStep _ _ hstep => exact h.decodeStep hsnap hstep
  | hufDecode len _ _ _ _ hloop =>
    have hloaded : (s.loadCursor len.toNat).NoMiss := h.of_same_fault rfl
    exact hloaded.decodeLoop (hsnap.of_same_table rfl rfl) hloop
  | viDec _ _ _ hkeeps =>
    rcases hkeeps.fault with hsame | ⟨-, hraised | hraised⟩
    · exact h.of_same_fault hsame
    · exact .of_fault_eq hraised (by decide) (by decide)
    · exact .of_fault_eq hraised (by decide) (by decide)

/-- Settles O33. No lookup finds an `Empty` entry, as the supplied table has none, and its build ends without a
collision. -/
theorem noMissNoCollision : Obligations.NoMissNoCollision := by
  intro s t c _ hsnap hready hstep hc
  have hclean : s.NoMiss := by simp [State.NoMiss, hready]
  suffices ht : t.NoMiss by
    rw [State.NoMiss, hc] at ht
    exact ⟨fun heq => ht.1 (congrArg some heq), fun heq => ht.2 (congrArg some heq)⟩
  rcases step_next_cases hstep with rfl | ⟨m, rest, -, hperform⟩
  · exact hclean
  · cases hperform with
    | hardReset | softReset => cases hc
    | command _ _ _ hexec =>
      have hmove : (s.withPending rest).NoMiss := hclean
      exact hmove.exec hsnap hexec
    | illegal => exact .of_fault_eq rfl (by decide) (by decide)
    | loadInput | ignored | read => exact hclean.of_same_fault rfl

end Sys2Proof.Machine
end

section
/-! SUPPORT. Repeated `HUF_STEP`s and the decode loop: each is the other, and each comes to an end (R125, R126). -/
namespace Sys2Proof.Machine

variable {s t : State}

/-! ### Progress -/

/-- The decode of the cursor has come to its end: it has stopped, or raised. -/
def State.Ended (s : State) : Prop := s.hdone = true ∨ s.fault ≠ none

theorem not_ended_iff : ¬ s.Ended ↔ s.hdone = false ∧ s.fault = none := by
  rw [State.Ended, not_or, Bool.not_eq_true, not_not]

/-- An iteration of a running decode raises, stops, or takes a real bit (R126). -/
theorem DecodeStepTo.progress (h : DecodeStepTo s t) (hd : s.hdone = false) : t.Ended ∨ t.rb < s.rb := by
  cases h with
  | notBuilt | eosLeaf | miss => exact .inl (.inr (Option.some_ne_none _))
  | done _ hd' => exact absurd (hd.symm.trans hd') (by decide)
  | exhausted | lastBranch => exact .inl (.inl rfl)
  | leaf _ _ hr => exact .inr (Nat.sub_lt hr (Nat.succ_pos _))
  | branch _ _ hr => exact .inr (Nat.sub_lt hr (by decide))

/-- A sequence answers a next state by way of one. -/
theorem exists_next_of_andThen {r : Result} {f : State → Result} (h : andThen r f = .next t) :
    ∃ u, r = .next u ∧ f u = .next t := by
  cases r with
  | next u => exact ⟨u, rfl, h⟩
  | fault _ => cases h
  | refused _ => cases h

/-- Before the end of the decode the loop makes an iteration (R125). -/
theorem decodeLoop_running (h : ¬ s.Ended) (fuel : Nat) :
    decodeLoop (fuel + 1) s = andThen (decodeStep s) (decodeLoop fuel) := by
  obtain ⟨hd, hf⟩ := not_ended_iff.1 h
  simp only [decodeLoop, hd, hf, Option.isSome_none, Bool.or_self, if_neg Bool.false_ne_true]
  cases decodeStep s <;> rfl

/-- Fuel beyond the real bits is not used (R126). -/
theorem decodeLoop_fuel {fuel fuel' : Nat} (h : s.rb < fuel) (h' : s.rb < fuel') :
    decodeLoop fuel s = decodeLoop fuel' s := by
  induction fuel generalizing s fuel' with
  | zero => omega
  | succ fuel ih =>
    obtain ⟨fuel', rfl⟩ := Nat.exists_eq_add_one_of_ne_zero (Nat.ne_zero_of_lt h')
    by_cases hend : s.Ended
    · rw [decodeLoop_ended hend, decodeLoop_ended hend]
    · rw [decodeLoop_running hend, decodeLoop_running hend]
      cases hstep : decodeStep s with
      | next t =>
        rw [andThen, andThen]
        rcases (decodeStep_cases hstep).progress (not_ended_iff.1 hend).1 with hend' | hrb
        · rw [decodeLoop_ended hend', decodeLoop_ended hend']
        · exact ih (by omega) (by omega)
      | fault r => rfl
      | refused r => rfl

/-- With fuel for every real bit the loop comes to the end of the decode (R126). -/
theorem decodeLoop_comes_to_end {fuel : Nat} (hfuel : s.rb < fuel) (h : decodeLoop fuel s = .next t) : t.Ended := by
  induction fuel generalizing s with
  | zero => omega
  | succ fuel ih =>
    by_cases hend : s.Ended
    · cases (decodeLoop_ended hend _).symm.trans h
      exact hend
    · rw [decodeLoop_running hend] at h
      obtain ⟨u, hu, h⟩ := exists_next_of_andThen h
      rcases (decodeStep_cases hu).progress (not_ended_iff.1 hend).1 with hend' | hrb
      · cases (decodeLoop_ended hend' _).symm.trans h
        exact hend'
      · exact ih (by omega) h

/-! ### Repeated steps -/

/-- A `HUF_STEP` after the end of the decode does nothing (R124, R184). -/
theorem exec_hufStep_ended (hv : s.lutValid = true) (h : s.Ended) : exec .hufStep s = .next s := by
  cases hf : s.fault with
  | some c => exact exec_faulted hf _
  | none =>
    have hd : s.hdone = true := h.resolve_right (not_not.2 hf)
    rw [exec_hufStep hf, decodeStep_done hv hd]

/-- `k` steps are the loop with fuel `k`: where the loop has ended the steps do nothing (R125). -/
theorem execTimes_hufStep (hv : s.lutValid = true) (k : Nat) : execTimes .hufStep k s = decodeLoop k s := by
  induction k generalizing s with
  | zero => rfl
  | succ k ih =>
    rw [execTimes]
    by_cases hend : s.Ended
    · rw [exec_hufStep_ended hv hend, andThen, ih hv, decodeLoop_ended hend, decodeLoop_ended hend]
    · rw [decodeLoop_running hend, exec_hufStep (not_ended_iff.1 hend).2]
      cases hstep : decodeStep s with
      | next t =>
        obtain ⟨-, -, -, -, htable⟩ := (decodeStep_cases hstep).keeps.commandKeeps
        exact ih (htable hv).2
      | fault r => rfl
      | refused r => rfl

end Sys2Proof.Machine
end

section
/-! The statements on the course of a decode: progress, the end, and the equivalence with single steps. -/
namespace Sys2Proof.Machine

/-- Settles O35: of the arms of an iteration, those that do not raise stop or take a bit. -/
theorem hufStepProgress : Obligations.HufStepProgress := by
  intro s t hready _ hd hexec hfault
  have hstep := decodeStep_cases ((exec_hufStep hready).symm.trans hexec)
  rcases hstep.progress hd with hend | hrb
  · exact .inl (hend.resolve_right (not_not.2 hfault))
  · exact .inr hrb

/-- Settles O37. `k` steps are the loop with fuel `k`, and fuel beyond the `8*len` real bits is not used; where the load
raises, or a fault is recorded, the steps are refused. -/
theorem hufDecodeIsLoadThenSteps : Obligations.HufDecodeIsLoadThenSteps := by
  intro s len k hv hk
  have hrefused {u : State} (hu : u.lutValid = true) (hf : u.fault ≠ none) : execTimes .hufStep k u = .next u :=
    (execTimes_hufStep hu k).trans (decodeLoop_ended (.inr hf) k)
  cases hfault : s.fault with
  | some c =>
    rw [exec_faulted hfault, exec_faulted hfault, andThen, hrefused hv (by simp [hfault])]
  | none =>
    rcases Nat.lt_or_ge s.inLen (s.ip + len.toNat) with hshort | hfits
    · rw [exec_hufDecode_truncated hfault hv hshort, exec_bcLoad_truncated hfault hshort, andThen,
        hrefused (u := s.raise .truncatedInput) hv (Option.some_ne_none _)]
    · have hbits : (s.loadCursor len.toNat).rb = 8 * len.toNat := rfl
      rw [exec_hufDecode_fits hfault hv hfits, exec_bcLoad_fits hfault hfits, andThen,
        execTimes_hufStep (s := s.loadCursor len.toNat) hv]
      exact decodeLoop_fuel (by omega) (by omega)

/-- What holds all along a decode: it runs, or it has stopped with nothing left at the root, or the table has raised. -/
def State.OnCourse (s : State) : Prop :=
  (s.fault = none ∧ s.hdone = false) ∨ (s.fault = none ∧ s.hdone = true ∧ s.rb = 0 ∧ s.lp = 0) ∨
    ((s.fault = some .huffEos ∨ s.fault = some .lutMiss) ∧ s.hdone = false)

theorem DecodeStepTo.onCourse {s t : State} (h : DecodeStepTo s t) (hv : s.lutValid = true) (hd : s.hdone = false)
    (hf : s.fault = none) : t.OnCourse := by
  cases h with
  | notBuilt hv' => exact absurd (hv.symm.trans hv') (by decide)
  | done => exact .inl ⟨hf, hd⟩
  | exhausted _ _ hr => exact .inr (.inl ⟨hf, rfl, hr, rfl⟩)
  | eosLeaf => exact .inr (.inr ⟨.inl rfl, hd⟩)
  | leaf => exact .inl ⟨hf, hd⟩
  | lastBranch => exact .inr (.inl ⟨hf, rfl, Nat.sub_self _, rfl⟩)
  | branch => exact .inl ⟨hf, hd⟩
  | miss => exact .inr (.inr ⟨.inr rfl, hd⟩)

/-- Settles O38. The loop answers a state, as the invariants hold along it; it has come to the end of the decode; and
along the way nothing but the decoder's items has changed. -/
theorem hufDecodeEnds : Obligations.HufDecodeEnds := by
  intro s len hinv hready hv hfits
  obtain ⟨t, ht⟩ := (hinv.loadCursor hfits).decodeLoop_next (8 * len.toNat + 1)
  have hkeeps := decodeLoop_frame ht
  obtain ⟨os, hos⟩ := hkeeps.out_grows
  have hcourse : t.lutValid = true ∧ t.OnCourse := by
    refine decodeLoop_keeps (s := s.loadCursor len.toNat) (P := fun u => u.lutValid = true ∧ u.OnCourse) (fun u v hu hd hf hstep => ?_)
      ⟨hv, .inl ⟨hready, rfl⟩⟩ ht
    obtain ⟨hbuilt, -⟩ := hu
    exact ⟨(hstep.keeps.commandKeeps.table_eq hbuilt).2, hstep.onCourse hbuilt hd hf⟩
  have hend := decodeLoop_comes_to_end (Nat.lt_succ_self _) ht
  refine ⟨t, os, (exec_hufDecode_fits hready hv hfits).trans ht, ?_, ?_⟩
  · rw [State.loadCursor_out] at hos
    rw [hos]
    exact hkeeps.frame
  · rcases hcourse.2 with hrunning | ⟨hf, hd, hrb, hlp⟩ | hraised
    · exact absurd hend (not_ended_iff.2 hrunning.symm)
    · exact .inl ⟨hf, hd, hrb, State.window_of_rb_eq_zero hrb, hlp⟩
    · exact .inr hraised

/-- Settles O39: the two checks in their order, and the empty cursor, on which the first iteration stops. -/
theorem hufDecodeChecks : Obligations.HufDecodeChecks := by
  refine fun s len hready => ⟨fun hv => exec_hufDecode_notBuilt hready hv len,
    fun hv hshort => exec_hufDecode_truncated hready hv hshort, fun hv hin => ?_⟩
  have hdec : (s.loadCursor (0 : Value).toNat).Decoding := State.Decoding.loadCursor hready hv hin
  exact exec_hufDecode hready hv hin (hdec.decodesTo_exhausted rfl)

end Sys2Proof.Machine
end

section
/-! SUPPORT. The supplied table along a decode: how deep it is, and how many bits a symbol takes (R122, R126, R231). -/
namespace Sys2Proof.Machine

variable {s t : State}

/-! ### Depth -/

/-- The branches that the supplied table still holds below a layer: layers 0, 1 and 2 are those with branches
(R122). -/
def branchesBelow (l : Nat) : Nat := 3 - l

/-- The `Branch` entries of a layer, with their indices. -/
def Layer.branches (x : Layer) : List (Nat × Nat) :=
  x.zipIdx.filterMap fun e => match e.1 with | .branch m => some (e.2, m) | .leaf _ _ => none | .empty => none

theorem Layer.mem_branches {x : Layer} {i m : Nat} (h : x[i]? = some (.branch m)) : (i, m) ∈ x.branches :=
  List.mem_filterMap.2 ⟨(.branch m, i), List.mem_zipIdx_iff_getElem?.2 h, rfl⟩

/-- In the supplied table every branch leads to a layer with fewer branches below (R122). -/
theorem branchesBelow_lt {u : Lut} (hu : build Config.huffCodes = .ok u) {l i m : Nat}
    (he : u.entry? l i = some (.branch m)) : branchesBelow m < branchesBelow l := by
  obtain ⟨v, hv, -, -, -, hbranches, -⟩ := suppliedTable
  obtain rfl : v = u := Except.ok.inj (hv.symm.trans hu)
  have hbelow : ∀ x ∈ (v.map Layer.branches).zipIdx, ∀ b ∈ x.1, branchesBelow b.2 < branchesBelow x.2 := by
    rw [show v.map Layer.branches = _ from hbranches]
    decide
  have hl := Lut.lt_length_of_entry? he
  rw [Lut.entry?, List.getElem?_eq_getElem hl] at he
  have hmem : (v[l].branches, l) ∈ (v.map Layer.branches).zipIdx := by
    rw [List.mem_zipIdx_iff_getElem?, List.getElem?_map, List.getElem?_eq_getElem hl, Option.map_some]
  exact hbelow _ hmem (i, m) (Layer.mem_branches he)

/-- A lookup ends the decode, yields a symbol, or goes down to a layer with fewer branches below (R126). -/
theorem DecodeStepTo.symbol_or_deeper (h : DecodeStepTo s t) (hu : build Config.huffCodes = .ok s.lut) :
    t.Ended ∨ s.out.length < t.out.length ∨
      (t.lut = s.lut ∧ t.out = s.out ∧ branchesBelow t.lp < branchesBelow s.lp) := by
  cases h with
  | notBuilt | eosLeaf | miss => exact .inl (.inr (Option.some_ne_none _))
  | exhausted | lastBranch => exact .inl (.inl rfl)
  | done _ hd => exact .inl (.inl hd)
  | leaf => exact .inr (.inl (by simp))
  | branch _ _ _ _ _ he => exact .inr (.inr ⟨rfl, rfl, branchesBelow_lt hu he⟩)

/-- As many steps as there are branches below, and one more, reach a symbol or the end (R126). -/
theorem decodeLoop_reaches_symbol {n : Nat} (hu : build Config.huffCodes = .ok s.lut) (hn : branchesBelow s.lp < n)
    (h : decodeLoop n s = .next t) : t.Ended ∨ s.out.length < t.out.length := by
  induction n generalizing s with
  | zero => omega
  | succ n ih =>
    by_cases hend : s.Ended
    · cases (decodeLoop_ended hend _).symm.trans h
      exact .inl hend
    · rw [decodeLoop_running hend] at h
      obtain ⟨u, hstep, h⟩ := exists_next_of_andThen h
      rcases (decodeStep_cases hstep).symbol_or_deeper hu with hend' | hlonger | ⟨hlut, hout, hdeeper⟩
      · cases (decodeLoop_ended hend' _).symm.trans h
        exact .inl hend'
      · exact .inr (hlonger.trans_le (decodeLoop_frame h).out_grows.length_le)
      · rw [← hout]
        exact ih (hlut ▸ hu) (by omega) h

/-! ### Bits of a symbol -/

/-- P2: lengths and patterns in range (R171). -/
theorem huffCodes_range : ∀ c ∈ Config.huffCodes, 5 ≤ c.len ∧ c.len ≤ 30 ∧ c.bits < 2 ^ c.len := by decide +kernel

/-- A leaf of the root is a whole code, of 5 bits or more (R171 P2). -/
theorem five_le_of_root_leaf {u : Lut} (hu : build Config.huffCodes = .ok u) {i : BitVec 8} {sym : Fin 257}
    {extra : Fin 8} (he : u.entry? 0 i.toNat = some (.leaf sym extra)) : 5 ≤ extra.val + 1 := by
  obtain ⟨hleaf, -⟩ := entryMeaning Config.huffCodes u huffCodes_nonEmpty hu [] 0 rfl i
  obtain ⟨c, hc, -, hpattern⟩ := (hleaf sym extra).1 he
  have hlength := congrArg List.length hpattern
  rw [HuffCode.pattern_length] at hlength
  simp only [List.length_append, List.length_take, bitsOfNat_length, bitsOfOctets_length, List.length_nil] at hlength
  obtain ⟨hfive, -, -⟩ := huffCodes_range c hc
  omega

/-- The bits that the branch to a layer took: none to the root (R124). -/
def branchBits (l : Nat) : Nat := if l = 0 then 0 else 8

theorem branchBits_le (l : Nat) : branchBits l ≤ 8 := by
  rw [branchBits]
  split <;> decide

/-- The octets emitted and the bits left pay for one another, five bits an octet, the 8 bits of a taken branch with
them; only the last symbol may take up to 4 bits more than are left (R231). `B` is five times the octets emitted
before and the bits of the sequence. -/
structure State.Paid (B : Nat) (s : State) : Prop where
  left : 0 < s.rb → 5 * s.out.length + s.rb + branchBits s.lp ≤ B
  emitted : 5 * s.out.length ≤ B + 4

theorem State.Paid.decodeStep {B : Nat} (h : s.Paid B) (hu : build Config.huffCodes = .ok s.lut)
    (hstep : DecodeStepTo s t) : t.Paid B := by
  cases hstep with
  | notBuilt | done | eosLeaf | miss => exact ⟨h.left, h.emitted⟩
  | exhausted _ _ hr => exact ⟨fun hr' => absurd hr (Nat.ne_of_gt hr'), h.emitted⟩
  | lastBranch => exact ⟨fun hr' => absurd (Nat.sub_self s.rb) (Nat.ne_of_gt hr'), h.emitted⟩
  | branch _ _ hr _ m _ h8 =>
    have hleft := h.left hr
    have hcost := branchBits_le m
    refine ⟨fun _ => ?_, h.emitted⟩
    simp only [State.setLp_out, State.setLp_rb, State.setLp_lp, State.shift_out, State.shift_rb]
    omega
  | leaf _ _ hr _ sym extra he =>
    have hleft := h.left hr
    have hcost : 5 ≤ extra.val + 1 + branchBits s.lp := by
      rw [branchBits]
      split
      next hroot => exact five_le_of_root_leaf hu (hroot ▸ he)
      next => omega
    have hroot : branchBits 0 = 0 := rfl
    constructor <;>
      simp only [State.setLp_out, State.setLp_rb, State.setLp_lp, State.shift_out, State.shift_rb, State.emit_out,
        State.emit_rb, List.length_append, List.length_singleton] <;>
      omega

theorem State.Paid.decodeLoop {B fuel : Nat} (h : s.Paid B) (hu : build Config.huffCodes = .ok s.lut)
    (hloop : decodeLoop fuel s = .next t) : t.Paid B := by
  refine (decodeLoop_keeps (P := fun u => build Config.huffCodes = .ok u.lut ∧ u.Paid B) (fun u v hu _ _ hstep => ?_)
    ⟨hu, h⟩ hloop).2
  obtain ⟨hbuild, hpaid⟩ := hu
  refine ⟨?_, hpaid.decodeStep hbuild hstep⟩
  rw [hstep.keeps.frame]
  exact hbuild

end Sys2Proof.Machine
end

section
/-! The statements on decodes with the supplied table, and on the supplied codes. -/
namespace Sys2Proof.Machine

/-- Settles O36: four steps are the loop with fuel 4, and from the root there are at most three branches. -/
theorem fourLookupsPerSymbol : Obligations.FourLookupsPerSymbol := by
  intro s t hsnap hready hv hd hroot hexec
  rw [execTimes_hufStep hv] at hexec
  have hbelow : branchesBelow s.lp < 4 := by simp [hroot, branchesBelow]
  exact or_assoc.1 (decodeLoop_reaches_symbol (hsnap hv) hbelow hexec)

/-- Settles O42: the loop pays five bits of the sequence for each octet, but for at most 4 bits of the last one. -/
theorem hufDecodeOutputBound : Obligations.HufDecodeOutputBound := by
  intro s t len hsnap hready hv hexec
  cases exec_cases hexec with
  | refused | illegal | hufDecodeNotBuilt | hufDecodeTruncated => exact Nat.le_add_right _ _
  | hufDecode _ _ _ _ _ hloop =>
    have hloaded : (s.loadCursor len.toNat).Paid (5 * s.out.length + 8 * len.toNat) :=
      ⟨fun _ => le_rfl, Nat.le_add_right _ _ |>.trans (Nat.le_add_right _ _)⟩
    have hpaid := (hloaded.decodeLoop (hsnap hv) hloop).emitted
    omega

/-- Settles O41: `18` is `'a'` and three zeros that virtual ones complete to another `'a'`; the other two strings are
ones, 24 of them and 32. -/
theorem lenientPadding : Obligations.LenientPadding := by
  intro s rest hsnap hready hv hin
  refine ⟨fun hsource => ?_, fun hsource => ?_, fun hsource => ?_⟩
  · obtain ⟨-, hcompleted, -⟩ := lenientDecoding s 1 [0x61] [0x18] rest [false, false, false] hsnap hready hv hin hsource
      rfl (by decide +kernel)
    simpa using hcompleted 0x61 2 (by decide +kernel) (by decide) (by decide)
  · obtain ⟨-, -, hones⟩ := lenientDecoding s 3 [] [0xff, 0xff, 0xff] rest (List.replicate 24 true) hsnap hready hv hin
      hsource rfl (by decide)
    simpa using (hones 24 rfl).1 (by decide)
  · obtain ⟨-, -, hones⟩ := lenientDecoding s 4 [] [0xff, 0xff, 0xff, 0xff] rest (List.replicate 32 true) hsnap hready hv
      hin hsource rfl (by decide)
    simpa using (hones 32 rfl).2 (by decide)

end Sys2Proof.Machine
end

section
/-! The statement on the supplied codes. -/
namespace Sys2Proof.Machine

/-- P3: the supplied codes are prefix-free, as their build ends without a collision (R123, R171). -/
theorem huffCodes_prefixFree : CodeTable.PrefixFree Config.huffCodes := by
  obtain ⟨t, ht, -⟩ := suppliedTable
  exact (buildSucceedsIffPrefixFree Config.huffCodes huffCodes_nonEmpty).1 ⟨t, ht⟩

/-- P4: the Kraft sum (R171). -/
theorem huffCodes_complete : (Config.huffCodes.map fun c => 2 ^ (30 - c.len)).sum = 2 ^ 30 := by decide +kernel

/-- P6: in canonical order each pattern is the one before plus 1, filled up with zeros (R171). -/
theorem huffCodes_canonical :
    (∀ c, (CodeTable.canonicalOrder Config.huffCodes).head? = some c → c.bits = 0) ∧
      (CodeTable.canonicalOrder Config.huffCodes).IsChain (fun a b => b.bits = (a.bits + 1) <<< (b.len - a.len)) := by
  have hrows : (CodeTable.canonicalOrder Config.huffCodes).head?.all (fun c => c.bits == 0) = true ∧
      (CodeTable.canonicalOrder Config.huffCodes).IsChain (fun a b => b.bits = (a.bits + 1) <<< (b.len - a.len)) := by
    decide +kernel
  exact ⟨fun c hc => by simpa [hc] using hrows.1, hrows.2⟩

/-- Settles O26. Everything but the prefix-freeness is read off the rows; that follows from the build. -/
theorem codeTableProperties : Obligations.CodeTableProperties := by
  obtain ⟨hfirst, hchain⟩ := huffCodes_canonical
  exact ⟨huffCodes_syms, huffCodes_range, by decide +kernel, by decide +kernel, huffCodes_prefixFree, huffCodes_complete,
    by decide +kernel, by decide +kernel, hfirst, hchain, by decide +kernel, by decide +kernel, by decide +kernel,
    by decide +kernel⟩

end Sys2Proof.Machine
end
